-- ==== Sys2Proof/Word.lean ====
section
/-! DEFINITION. The word types of the VYB-T5 core and the domain tag, with nothing computed on them. -/

namespace Sys2Proof

/-- A 64-bit word, the width of every register of the block (R5, R20, R23). -/
abbrev Word := BitVec 64

/-- A byte of a word (R63, R143). -/
abbrev Byte := BitVec 8

/-- The index of a field register or of a sponge position: every 4-bit value is legal (R20, R23, R82). -/
abbrev Reg := Fin 16

/-- The 16 words of the sponge state (R23). -/
abbrev Sponge := Vector Word 16

/-- A rate-length block of 10 words (R5). -/
abbrev Block := Vector Word 10

/-- The domain tag (R25): `VariableLength` is 0 and `FixedLength` is 1. -/
inductive Domain where
  | variableLength
  | fixedLength
deriving DecidableEq, Repr

/-- The bit that stands for a domain in `imm[0]` of SINIT and in STATUS.DOM (R25, R31, R83). -/
def Domain.bit : Domain → Bool
  | .variableLength => false
  | .fixedLength => true

/-- The domain a bit stands for (R83). -/
def Domain.ofBit (b : Bool) : Domain :=
  if b then .fixedLength else .variableLength

end Sys2Proof
end

