-- ==== Sys2Proof/Syntax.lean ====
section
/-! DEFINITION. The command set (R84): one constructor per row of the opcode table. Registers are 4-bit indices, so
every one is legal (R82); immediates are natural numbers, and `WellFormed` says which fit their field. -/

namespace Sys2Proof

/-- A command of the VYB-T5 command set, version 1 (R84). -/
inductive Instr where
  /-- R119. -/
  | nop
  /-- R104. -/
  | fadd (rd rs1 rs2 : Reg)
  /-- R105. -/
  | fsub (rd rs1 rs2 : Reg)
  /-- R106. -/
  | fneg (rd rs1 : Reg)
  /-- R110. -/
  | fmul (rd rs1 rs2 : Reg)
  /-- R111. -/
  | fsqr (rd rs1 : Reg)
  /-- R112; `rs1` holds the high half and `rs2` the low half. -/
  | fredc (rd rs1 rs2 : Reg)
  /-- R107. -/
  | ftom (rd rs1 : Reg)
  /-- R108. -/
  | fcan (rd rs1 : Reg)
  /-- R114. -/
  | finv (rd rs1 : Reg)
  /-- R113; `rs1` holds the base and `rs2` the exponent. -/
  | fpow (rd rs1 rs2 : Reg)
  /-- R116. -/
  | feq (rs1 rs2 : Reg)
  /-- R117. -/
  | flt (rs1 rs2 : Reg)
  /-- R118. -/
  | fgt (rs1 rs2 : Reg)
  /-- R171. -/
  | sinit (dom : Domain)
  /-- R151. -/
  | perm
  /-- R174. -/
  | absorb
  /-- R175. -/
  | squeeze
  /-- R177; `n` is imm[7:0]. -/
  | padabs (n : Nat)
  /-- R178; `n` is imm[7:0]. -/
  | hashf (n : Nat)
  /-- R201; `start` is imm[7], `rs1` holds the bound, `count` is imm[4:0]. -/
  | smpi (start : Bool) (rs1 : Reg) (count : Nat)
  /-- R205; `start` is imm[7], `count` is imm[2:0]. -/
  | smps (start : Bool) (count : Nat)
deriving DecidableEq, Repr

/-- The pseudo-command VINIT (R90). -/
abbrev Instr.vinit : Instr := .sinit .variableLength

/-- The pseudo-command FINIT (R90). -/
abbrev Instr.finit : Instr := .sinit .fixedLength

/-- The pseudo-command HASHPAIR (R90, R181). -/
abbrev Instr.hashpair : Instr := .hashf 10

/-- The pseudo-command PADZ (R90). -/
abbrev Instr.padz : Instr := .padabs 0

end Sys2Proof
end

