-- ==== Sys2Proof/WellFormed.lean ====
section
/-! DEFINITION. Which commands have an encoding (R81, R83): each immediate fits its field. A count or length that fits
the field but is out of the command's legal range is well formed; it raises BAD_LENGTH when it executes (R83). -/

namespace Sys2Proof

/-- The immediate of a command fits its bit field (R83): `n` in imm[7:0], SMPI's `count` in imm[4:0], SMPS's in
imm[2:0]. Every register index fits (R82). -/
def Instr.wellFormed : Instr → Bool
  | .nop => true
  | .fadd _ _ _ => true
  | .fsub _ _ _ => true
  | .fneg _ _ => true
  | .fmul _ _ _ => true
  | .fsqr _ _ => true
  | .fredc _ _ _ => true
  | .ftom _ _ => true
  | .fcan _ _ => true
  | .finv _ _ => true
  | .fpow _ _ _ => true
  | .feq _ _ => true
  | .flt _ _ => true
  | .fgt _ _ => true
  | .sinit _ => true
  | .perm => true
  | .absorb => true
  | .squeeze => true
  | .padabs n => decide (n < 2 ^ 8)
  | .hashf n => decide (n < 2 ^ 8)
  | .smpi _ _ count => decide (count < 2 ^ 5)
  | .smps _ count => decide (count < 2 ^ 3)

/-- The command is well formed, as a proposition. -/
abbrev Instr.WellFormed (i : Instr) : Prop := i.wellFormed = true

end Sys2Proof
end

