-- ==== Sys2Proof/Decode.lean ====
section
/-! DEFINITION. Reading a command word (R80 to R88) and writing one. `decode` follows the three stages of R86 with the
match and mask rows of R85; `encode` is written from the field positions of R81 and the immediates of R83. -/

namespace Sys2Proof

/-- Why a word is no command (R86, R87). -/
inductive DecodeError where
  /-- Bits 7:0 are no opcode of R84. -/
  | illegalOpcode
  /-- A must-be-zero bit is 1. -/
  | reservedField
deriving DecidableEq, Repr

/-- The 22 opcodes by name (R84). -/
inductive Opcode where
  | nop | fadd | fsub | fneg | fmul | fsqr | fredc | ftom | fcan | finv | fpow | feq | flt | fgt
  | sinit | perm | absorb | squeeze | padabs | hashf | smpi | smps
deriving DecidableEq, Repr

/-- The opcode byte (R84). -/
def Opcode.byte : Opcode → Byte
  | .nop => 0x00
  | .fadd => 0x01
  | .fsub => 0x02
  | .fneg => 0x03
  | .fmul => 0x04
  | .fsqr => 0x05
  | .fredc => 0x06
  | .ftom => 0x07
  | .fcan => 0x08
  | .finv => 0x09
  | .fpow => 0x0A
  | .feq => 0x0B
  | .flt => 0x0C
  | .fgt => 0x0D
  | .sinit => 0x20
  | .perm => 0x21
  | .absorb => 0x22
  | .squeeze => 0x23
  | .padabs => 0x24
  | .hashf => 0x25
  | .smpi => 0x26
  | .smps => 0x27

/-- The opcodes in the order of R84. -/
def Opcode.all : List Opcode :=
  [.nop, .fadd, .fsub, .fneg, .fmul, .fsqr, .fredc, .ftom, .fcan, .finv, .fpow, .feq, .flt, .fgt,
    .sinit, .perm, .absorb, .squeeze, .padabs, .hashf, .smpi, .smps]

/-- The opcode a byte names, if any: 0x0E to 0x1F and 0x28 to 0xFF name none (R84, R86). -/
def Opcode.ofByte (b : Byte) : Option Opcode :=
  Opcode.all.find? fun op => op.byte == b

/-- The match word of an opcode's row (R85). -/
def Opcode.matchWord : Opcode → BitVec 32
  | .nop => 0x00000000
  | .fadd => 0x00000001
  | .fsub => 0x00000002
  | .fneg => 0x00000003
  | .fmul => 0x00000004
  | .fsqr => 0x00000005
  | .fredc => 0x00000006
  | .ftom => 0x00000007
  | .fcan => 0x00000008
  | .finv => 0x00000009
  | .fpow => 0x0000000A
  | .feq => 0x0000000B
  | .flt => 0x0000000C
  | .fgt => 0x0000000D
  | .sinit => 0x00000020
  | .perm => 0x00000021
  | .absorb => 0x00000022
  | .squeeze => 0x00000023
  | .padabs => 0x00000024
  | .hashf => 0x00000025
  | .smpi => 0x00000026
  | .smps => 0x00000027

/-- The mask of an opcode's row (R85). -/
def Opcode.mask : Opcode → BitVec 32
  | .nop => 0xFFFFFFFF
  | .fadd => 0xFFF000FF
  | .fsub => 0xFFF000FF
  | .fneg => 0xFFFF00FF
  | .fmul => 0xFFF000FF
  | .fsqr => 0xFFFF00FF
  | .fredc => 0xFFF000FF
  | .ftom => 0xFFFF00FF
  | .fcan => 0xFFFF00FF
  | .finv => 0xFFFF00FF
  | .fpow => 0xFFF000FF
  | .feq => 0xFFF00FFF
  | .flt => 0xFFF00FFF
  | .fgt => 0xFFF00FFF
  | .sinit => 0xFFEFFFFF
  | .perm => 0xFFFFFFFF
  | .absorb => 0xFFFFFFFF
  | .squeeze => 0xFFFFFFFF
  | .padabs => 0xF00FFFFF
  | .hashf => 0xF00FFFFF
  | .smpi => 0xF60F0FFF
  | .smps => 0xF78FFFFF

/-- `op`, bits 7:0 (R81). -/
def opField (w : BitVec 32) : Byte := w.extractLsb' 0 8

/-- `rd`, bits 11:8 (R81, R82). -/
def rdField (w : BitVec 32) : Reg := (w.extractLsb' 8 4).toFin

/-- `rs1`, bits 15:12 (R81, R82). -/
def rs1Field (w : BitVec 32) : Reg := (w.extractLsb' 12 4).toFin

/-- `rs2`, bits 19:16 (R81, R82). -/
def rs2Field (w : BitVec 32) : Reg := (w.extractLsb' 16 4).toFin

/-- `imm`, bits 27:20 (R81). -/
def immField (w : BitVec 32) : Byte := w.extractLsb' 20 8

/-- The command an opcode and the fields of a word give (R83, R84). Every field is zero-extended. -/
def Opcode.build (w : BitVec 32) : Opcode → Instr
  | .nop => .nop
  | .fadd => .fadd (rdField w) (rs1Field w) (rs2Field w)
  | .fsub => .fsub (rdField w) (rs1Field w) (rs2Field w)
  | .fneg => .fneg (rdField w) (rs1Field w)
  | .fmul => .fmul (rdField w) (rs1Field w) (rs2Field w)
  | .fsqr => .fsqr (rdField w) (rs1Field w)
  | .fredc => .fredc (rdField w) (rs1Field w) (rs2Field w)
  | .ftom => .ftom (rdField w) (rs1Field w)
  | .fcan => .fcan (rdField w) (rs1Field w)
  | .finv => .finv (rdField w) (rs1Field w)
  | .fpow => .fpow (rdField w) (rs1Field w) (rs2Field w)
  | .feq => .feq (rs1Field w) (rs2Field w)
  | .flt => .flt (rs1Field w) (rs2Field w)
  | .fgt => .fgt (rs1Field w) (rs2Field w)
  | .sinit => .sinit (Domain.ofBit ((immField w).getLsbD 0))
  | .perm => .perm
  | .absorb => .absorb
  | .squeeze => .squeeze
  | .padabs => .padabs (immField w).toNat
  | .hashf => .hashf (immField w).toNat
  | .smpi => .smpi ((immField w).getLsbD 7) (rs1Field w) ((immField w).extractLsb' 0 5).toNat
  | .smps => .smps ((immField w).getLsbD 7) ((immField w).extractLsb' 0 3).toNat

/-- Decoding a 32-bit command word in the three stages of R86. -/
def decode (w : BitVec 32) : Except DecodeError Instr :=
  match Opcode.ofByte (opField w) with
  | none => .error .illegalOpcode
  | some op =>
    if w &&& op.mask = op.matchWord then .ok (op.build w) else .error .reservedField

/-- Decoding the whole 64-bit value written to CMD: bits 63:32 that are not 0 are a reserved field whatever bits 31:0
hold, and the opcode is then not looked at (R87). -/
def decodeCmd (v : Word) : Except DecodeError Instr :=
  if v.extractLsb' 32 32 = 0 then decode (v.extractLsb' 0 32) else .error .reservedField

/-- A command word from its fields, high to low: res = 0, imm, rs2, rs1, rd, op (R81). -/
def packFields (op : Byte) (rd rs1 rs2 : Reg) (imm : Byte) : BitVec 32 :=
  (0#4 ++ (imm ++ (BitVec.ofFin rs2 ++ (BitVec.ofFin rs1 ++ (BitVec.ofFin rd ++ op : BitVec 12) : BitVec 16) :
    BitVec 20) : BitVec 28) : BitVec 32)

/-- The immediate of a sampling command: `start` in bit 7 and `count` in the low bits (R83). -/
def samplingImm (start : Bool) (count : Nat) : Byte :=
  BitVec.ofNat 8 ((if start then 0x80 else 0) + count)

/-- The word of a well-formed command, from R81, R83 and R84. A dash of R84 is the field 0. -/
def encode : Instr → BitVec 32
  | .nop => packFields 0x00 0 0 0 0
  | .fadd rd rs1 rs2 => packFields 0x01 rd rs1 rs2 0
  | .fsub rd rs1 rs2 => packFields 0x02 rd rs1 rs2 0
  | .fneg rd rs1 => packFields 0x03 rd rs1 0 0
  | .fmul rd rs1 rs2 => packFields 0x04 rd rs1 rs2 0
  | .fsqr rd rs1 => packFields 0x05 rd rs1 0 0
  | .fredc rd rs1 rs2 => packFields 0x06 rd rs1 rs2 0
  | .ftom rd rs1 => packFields 0x07 rd rs1 0 0
  | .fcan rd rs1 => packFields 0x08 rd rs1 0 0
  | .finv rd rs1 => packFields 0x09 rd rs1 0 0
  | .fpow rd rs1 rs2 => packFields 0x0A rd rs1 rs2 0
  | .feq rs1 rs2 => packFields 0x0B 0 rs1 rs2 0
  | .flt rs1 rs2 => packFields 0x0C 0 rs1 rs2 0
  | .fgt rs1 rs2 => packFields 0x0D 0 rs1 rs2 0
  | .sinit dom => packFields 0x20 0 0 0 (BitVec.ofNat 8 dom.bit.toNat)
  | .perm => packFields 0x21 0 0 0 0
  | .absorb => packFields 0x22 0 0 0 0
  | .squeeze => packFields 0x23 0 0 0 0
  | .padabs n => packFields 0x24 0 0 0 (BitVec.ofNat 8 n)
  | .hashf n => packFields 0x25 0 0 0 (BitVec.ofNat 8 n)
  | .smpi start rs1 count => packFields 0x26 0 rs1 0 (samplingImm start count)
  | .smps start count => packFields 0x27 0 0 0 (samplingImm start count)

/-- The 64-bit CMD value of a row's word `w` of `nbits` bits, numbered as the opcode table numbers them: a command is
bits 31:0 of one CMD write (R80), and every bit above `nbits` is 0. -/
def tableWord (nbits w : Nat) : Word := BitVec.ofNat 64 (w % 2 ^ nbits)

/-- What the decoder reads from a row's word: the whole CMD value is decoded, so a bit above bit 31 is refused. -/
def decodeTableWord (nbits w : Nat) : Option Instr :=
  match decodeCmd (tableWord nbits w) with
  | .ok i => some i
  | .error _ => none

end Sys2Proof
end

