-- ==== Sys2Proof/Config.lean ====
section
/-! DEFINITION. What is fixed for one VYB-T5 core: the constants of R5, and the open parameters of R6 and R7 as
opaque constants, so that a theorem about the machine holds for every value they may have. -/

namespace Sys2Proof

/-- The Goldilocks prime 2^64 - 2^32 + 1 (R5). -/
abbrev Config.P : Nat := 0xFFFFFFFF00000001

/-- `R2` = 2^128 mod P (R5). -/
def Config.R2 : Word := 0xFFFFFFFE00000001

/-- The Montgomery word of 1, 2^64 mod P (R5). -/
def Config.ONE : Word := 0x00000000FFFFFFFF

/-- The three tables of the permutation (R6), as plain functions, so that the permutation can be run on any of
them (the test set PS-T among them). The machine runs it on `Config.tables`. -/
structure Tables where
  /-- The 256-entry byte table (R144). -/
  sbox : Byte → Byte
  /-- The first column of the circulant matrix (R149). -/
  mdsCol : Fin 16 → Nat
  /-- The 80 round constants, as canonical values; entry 16 r + i belongs to round r, position i (R150). -/
  rc : Fin 80 → Nat

/-- What R144 and R150 ask of the tables. -/
structure Tables.Valid (T : Tables) : Prop where
  sbox_bijective : Function.Bijective T.sbox
  sbox_zero : T.sbox 0x00 = 0x00
  sbox_ff : T.sbox 0xFF = 0xFF
  rc_lt : ∀ k, T.rc k < Config.P

/-- OPEN PARAMETER (R6, D25; DESIGN CHOICE, safe, log 3): what the S-box does to the bytes 1 to 254, which R144 makes a permutation of
them (entry k stands for the byte k + 1). No value is known. -/
opaque Config.sboxInner : Equiv.Perm (Fin 254)

/-- OPEN PARAMETER (R6, R149, D24; DESIGN CHOICE, safe, log 3): the first column of the circulant matrix. No value is known. -/
opaque Config.mdsCol : Fin 16 → Nat

/-- OPEN PARAMETER (R6, R150, D23; DESIGN CHOICE, safe, log 3): the 80 round constants, values below P. No value is known. -/
opaque Config.rc : Fin 80 → Fin Config.P

/-- The S-box of the machine (R144): 0 and 255 are fixed points, and the bytes between them are permuted. Every
table that meets the three conditions of R144 has this form, and no other has. -/
def Config.sbox (x : Byte) : Byte :=
  if h : 1 ≤ x.toNat ∧ x.toNat ≤ 254 then
    BitVec.ofNat 8 ((Config.sboxInner ⟨x.toNat - 1, by omega⟩).val + 1)
  else x

/-- The tables the machine runs on (R37: fixed, no write path). -/
def Config.tables : Tables where
  sbox := Config.sbox
  mdsCol := Config.mdsCol
  rc := fun k => (Config.rc k).val

/-- DESIGN CHOICE, left open, safe (log 5): a host access that is refused while BUSY = 1 and would be refused by its form
or its value too meets two rules that name different codes (R265 against R62, R64 and R24), and no rule orders them.
True: the access records BUSY_ACCESS. False: it records the other code. It may depend on the whole access (is it a write, its
offset, its width in bytes, the value written). -/
opaque Config.busyCodeFirst : Bool → BitVec 9 → Nat → Word → Bool

/-- How many squeezes of nothing but rejected elements SMPI goes through before the model calls it stuck (R208; DESIGN CHOICE,
safe, log 6): one more than there are capacities (six 64-bit words), so that some sponge state has come twice by then and the
loop can never end. -/
def Config.sampleRefills : Nat := (2 ^ 64) ^ 6 + 1

end Sys2Proof
end

