-- ==== Sys2Proof/Machine/FieldOps.lean ====
section
/-! DEFINITION. Arithmetic on Montgomery words (R10, R11, R100 to R121): Montgomery reduction, the modular adder, the
multiplier, exponentiation and inverse. Nothing here touches the state. -/

namespace Sys2Proof.Machine

open Sys2Proof

/-- A word is canonical when it is below P (R10). -/
abbrev Canonical (w : Word) : Prop := w.toNat < Config.P

/-- `MontRed(x)`, bit for bit (R100). `t` is the 65-bit sum, `a` its low 64 bits and `e` its overflow bit. -/
def montRed (x : BitVec 128) : Word :=
  let lo : Word := x.extractLsb' 0 64
  let hi : Word := x.extractLsb' 64 64
  let t : Nat := lo.toNat + (lo <<< 32).toNat
  let a : Word := BitVec.ofNat 64 t
  let e : Word := BitVec.ofNat 64 (t / 2 ^ 64)
  let b : Word := a - (a >>> 32) - e
  let r : Word := hi - b
  if hi < b then r + BitVec.ofNat 64 Config.P else r

/-- The borrow correction in the form of R120, `r - (1 + !P) * borrow`. -/
def montRedNotForm (x : BitVec 128) : Word :=
  let lo : Word := x.extractLsb' 0 64
  let hi : Word := x.extractLsb' 64 64
  let t : Nat := lo.toNat + (lo <<< 32).toNat
  let a : Word := BitVec.ofNat 64 t
  let e : Word := BitVec.ofNat 64 (t / 2 ^ 64)
  let b : Word := a - (a >>> 32) - e
  hi - b - (1 + ~~~(BitVec.ofNat 64 Config.P)) * (if hi < b then 1 else 0)

/-- The exact 128-bit product of two words (R109: nothing is cut off before the reduction). -/
def mulWide (a b : Word) : BitVec 128 := BitVec.ofNat 128 (a.toNat * b.toNat)

/-- `{hi, lo}`, the 128-bit concatenation (R8). -/
def joinWide (hi lo : Word) : BitVec 128 := hi ++ lo

/-- `mont(v)`, the Montgomery word of a value (R10). -/
def mont (v : Nat) : Word := BitVec.ofNat 64 (v * 2 ^ 64 % Config.P)

/-- `canon(w)`, the value a canonical word stands for, as MontRed of the word (R10, R108). -/
def canon (w : Word) : Word := montRed (w.setWidth 128)

/-- `fadd(a, b)` (R11). -/
def fadd (a b : Word) : Word := BitVec.ofNat 64 ((a.toNat + b.toNat) % Config.P)

/-- `fsub(a, b)`, with the non-negative remainder (R11, R105). The difference is taken in the integers. -/
def fsub (a b : Word) : Word := BitVec.ofNat 64 (((a.toNat : Int) - (b.toNat : Int)) % (Config.P : Int)).toNat

/-- `fneg(a)`: 0 goes to 0, never to P (R11, R106). -/
def fneg (a : Word) : Word := BitVec.ofNat 64 (((Config.P : Int) - (a.toNat : Int)) % (Config.P : Int)).toNat

/-- `fmul(a, b)` (R11, R103). -/
def fmul (a b : Word) : Word := montRed (mulWide a b)

/-- Entering Montgomery form, `MontRed(v * R2)` (R107). -/
def toMont (v : Word) : Word := montRed (mulWide v Config.R2)

/-- The loop of R113 over bits `k - 1` down to 0 of the exponent: square, and multiply where the bit is 1. -/
def powLoop (a e : Word) : Nat → Word → Word
  | 0, acc => acc
  | k + 1, acc => powLoop a e k (if e.getLsbD k then fmul (fmul acc acc) a else fmul acc acc)

/-- Exponentiation of a Montgomery word by a plain integer, most significant bit first (R113). -/
def fpow (a e : Word) : Word := powLoop a e 64 Config.ONE

/-- The inverse of a word that is not 0, as the power P - 2 (R114, R115: equal to FPOW with e = P - 2;
DEDUCED, safe, log 11). -/
def finv (a : Word) : Word := fpow a (BitVec.ofNat 64 (Config.P - 2))

end Sys2Proof.Machine
end

