-- ==== Sys2Proof/Machine/State.lean ====
section
/-! DEFINITION. The state of one VYB-T5 core as plain data (R20 to R38), the accesses its host may make (R61), and the
reasons a command can stop. -/

namespace Sys2Proof.Machine

/-- QKIND (R26): which sampling call the queue belongs to. -/
inductive QKind where
  | none
  | smpi
  | smps
deriving DecidableEq, Repr

/-- ERRCODE (R221): the codes the block can record. Every other 8-bit value is reserved and never produced (DEDUCED,
safe, log 12). -/
inductive ErrCode where
  | none
  | illegalOpcode
  | reservedField
  | badLength
  | operandNoncanon
  | invZero
  | badBound
  | sampleSeq
  | hostAccess
  | hostNoncanonWrite
  | busyAccess
deriving DecidableEq, Repr

/-- One host transaction on the register window (R61, R62): `off` is the byte offset in the 512-byte window (R60; log
7), `width` the width in bytes, `v` the value written (of a width other than 8 nothing is written, R62). -/
inductive Access where
  | read (off : BitVec 9) (width : Nat)
  | write (off : BitVec 9) (width : Nat) (v : Word)
deriving DecidableEq, Repr

/-- What happens next around the block (R69, R260, R264; log 1): a host access, a turn of the engine, or the
platform's power-on reset. -/
inductive Event where
  | host (a : Access)
  | engine
  | powerOn
deriving DecidableEq, Repr

/-- Why a command stops without completing. -/
inductive Fault where
  /-- Raised by SMPI (`execSmpi`) when its loop has met only rejected elements until its fuel was spent (R208, R269,
  U12): the command is stuck. `step` does not stop there: the command stays latched with BUSY = 1, and the host goes
  on. Safe: the fuel is so large that the loop of the hardware does not end either (log 6). -/
  | samplingStuck
deriving DecidableEq, Repr

/-- Why a command has no meaning. -/
inductive Refusal where
  /-- Raised by `exec` for a command the model gives no meaning. No arm raises it: every command has its meaning.
  Safe: nothing can be proved of a state that is not reached. -/
  | notModelled (mnemonic : String)
deriving DecidableEq, Repr

/-- The state of the block (R20 to R38), and the two fields of its environment (`events`, `replies`; log 1, log 2). -/
structure State where
  /-- FR[0..15] (R20). -/
  fr : Vector Word 16
  /-- S[0..15] (R23). -/
  sponge : Sponge
  /-- DOM (R25). -/
  dom : Domain
  /-- Q, head first (R26). -/
  q : List Word
  /-- QKIND (R26). -/
  qkind : QKind
  /-- BUSY (R28). -/
  busy : Bool
  /-- PENDING: the whole 64-bit value written to CMD, or none (R28). -/
  pending : Option Word
  /-- LASTCMD (R28). -/
  lastCmd : BitVec 32
  /-- CMP (R29). -/
  cmp : Bool
  /-- ERR (R30). -/
  err : Bool
  /-- ERRCODE (R30). -/
  errCode : ErrCode
  /-- The model's own: what is still to happen around the block, first first (DESIGN CHOICE, log 1). -/
  events : List Event
  /-- The model's own: the words the host's reads returned, newest first (DESIGN CHOICE, log 2). -/
  replies : List Word
deriving DecidableEq, Repr

/-- The machine right after reset (R38, R260), with no host access waiting and none made. -/
def State.reset : State where
  fr := Vector.replicate 16 0
  sponge := Vector.replicate 16 0
  dom := .variableLength
  q := []
  qkind := .none
  busy := false
  pending := none
  lastCmd := 0
  cmp := false
  err := false
  errCode := .none
  events := []
  replies := []

end Sys2Proof.Machine
end

