-- ==== Sys2Proof/Machine/Flags.lean ====
section
/-! DEFINITION. The compare flag's three rules (R116 to R118), the STATUS view of the state (R31), and the read-only
words ID and CFG (R33, R34). -/

namespace Sys2Proof.Machine

open Sys2Proof

/-- CMP after FEQ: the words are compared (R116). -/
def cmpEq (a b : Word) : Bool := a == b

/-- CMP after FLT: canonical values are compared (R117). -/
def cmpLt (a b : Word) : Bool := decide (canon a < canon b)

/-- CMP after FGT: canonical values are compared (R118). -/
def cmpGt (a b : Word) : Bool := decide (canon b < canon a)

/-- The 8-bit value of an error code (R221). -/
def errCodeByte : ErrCode → Byte
  | .none => 0x00
  | .illegalOpcode => 0x01
  | .reservedField => 0x02
  | .badLength => 0x03
  | .operandNoncanon => 0x04
  | .invZero => 0x05
  | .badBound => 0x06
  | .sampleSeq => 0x07
  | .hostAccess => 0x10
  | .hostNoncanonWrite => 0x11
  | .busyAccess => 0x12

/-- The 2-bit value of QKIND (R26, R31). -/
def qkindBits : QKind → BitVec 2
  | .none => 0
  | .smpi => 1
  | .smps => 2

/-- STATUS (R31): bits 63:22 and 7:4 read as 0. -/
def statusWord (s : State) : Word :=
  0#42 ++ qkindBits s.qkind ++ BitVec.ofNat 4 s.q.length ++ errCodeByte s.errCode ++ 0#4 ++
    BitVec.ofBool s.dom.bit ++ BitVec.ofBool s.cmp ++ BitVec.ofBool s.err ++ BitVec.ofBool s.busy

/-- ID (R33). -/
def idWord : Word := 0x0000000135504954

/-- CFG (R34). -/
def cfgWord : Word := 0x0000030505060A10

end Sys2Proof.Machine
end

