-- ==== Sys2Proof/Machine/Tip5.lean ====
section
/-! DEFINITION. The Tip5 permutation (R140 to R150), for any tables. -/

namespace Sys2Proof.Machine

open Sys2Proof

/-- Byte `k` of a word, bits 8k+7 : 8k (R63, R143). -/
def wordByte (w : Word) (k : Nat) : Byte := w.extractLsb' (8 * k) 8

/-- The word of eight bytes, byte 0 lowest (R63, R143). -/
def wordOfBytes (b : Fin 8 → Byte) : Word :=
  BitVec.ofNat 64 ((b 0).toNat + (b 1).toNat * 2 ^ 8 + (b 2).toNat * 2 ^ 16 + (b 3).toNat * 2 ^ 24 +
    (b 4).toNat * 2 ^ 32 + (b 5).toNat * 2 ^ 40 + (b 6).toNat * 2 ^ 48 + (b 7).toNat * 2 ^ 56)

/-- `SplitLookup(w)`: each byte of the Montgomery word is replaced through the S-box, with no reduction (R143). -/
def splitLookup (T : Tables) (w : Word) : Word := wordOfBytes fun k => T.sbox (wordByte w k)

/-- `PowerMap(w)`, x · x^2 · x^4 (R146). -/
def powerMap (w : Word) : Word :=
  let w2 := fmul w w
  let w4 := fmul w2 w2
  fmul (fmul w w2) w4

/-- `SboxLayer(s)`: split-and-lookup at positions 0 to 3, the power map at 4 to 15 (R142). -/
def sboxLayer (T : Tables) (s : Sponge) : Sponge :=
  Vector.ofFn fun i => if i.val < 4 then splitLookup T s[i] else powerMap s[i]

/-- The exact sum of row `i` of the matrix product, M[i][j] = MDS_COL[(i - j) mod 16] (R147). The subtraction of
indices is modulo 16. -/
def mdsSum (T : Tables) (u : Sponge) (i : Fin 16) : Nat :=
  ((List.finRange 16).map fun j => T.mdsCol (i - j) * (u[j]).toNat).sum

/-- `MdsLayer(u)`: every output word is fully reduced (R147, D22). -/
def mdsLayer (T : Tables) (u : Sponge) : Sponge :=
  Vector.ofFn fun i => BitVec.ofNat 64 (mdsSum T u i % Config.P)

/-- The constant of round `r` at position `i`, RC[16 r + i] (R150). -/
def roundConstant (T : Tables) (r : Fin 5) (i : Fin 16) : Nat :=
  T.rc ⟨16 * r.val + i.val, by omega⟩

/-- Adding the constants of round `r` (R141). -/
def addConstants (T : Tables) (r : Fin 5) (v : Sponge) : Sponge :=
  Vector.ofFn fun i => fadd v[i] (mont (roundConstant T r i))

/-- `Round(s, r)` (R141). -/
def tip5Round (T : Tables) (s : Sponge) (r : Fin 5) : Sponge :=
  addConstants T r (mdsLayer T (sboxLayer T s))

/-- `Tip5(s)`: the rounds 0 to 4 in order (R140). -/
def tip5 (T : Tables) (s : Sponge) : Sponge :=
  ([0, 1, 2, 3, 4] : List (Fin 5)).foldl (tip5Round T) s

/-- The low or high halves of a state through the same circuit, as exact sums (R148). -/
def mdsHalfSum (T : Tables) (u : Sponge) (half : Word → Nat) (i : Fin 16) : Nat :=
  ((List.finRange 16).map fun j => T.mdsCol (i - j) * half u[j]).sum

/-- The layer by the reference circuit's method (R148): both halves apart, recombined as low + high * 2^32. -/
def mdsLayerByHalves (T : Tables) (u : Sponge) : Sponge :=
  Vector.ofFn fun i => BitVec.ofNat 64
    ((mdsHalfSum T u (fun w => (w.extractLsb' 0 32).toNat) i +
      mdsHalfSum T u (fun w => (w.extractLsb' 32 32).toNat) i * 2 ^ 32) % Config.P)

end Sys2Proof.Machine
end

