-- ==== Sys2Proof/Machine/SpongeOps.lean ====
section
/-! DEFINITION. The sponge primitives (R170, R172, R173, R176) and the queue primitives (R200 to R203), on the sponge
words alone and for any tables. -/

namespace Sys2Proof.Machine

open Sys2Proof

/-- `Init(dom)` (R170): the rate is 0, and the capacity is 0 or ONE by domain. -/
def initSponge (dom : Domain) : Sponge :=
  Vector.ofFn fun i => if i.val < 10 then 0 else if dom.bit then Config.ONE else 0

/-- The rate of a sponge, S[0..9] (R23). -/
def rateOf (s : Sponge) : Block := Vector.ofFn fun i => s[i.val]

/-- The rate with a block added by field addition; the capacity is not touched (R172). -/
def addBlock (s : Sponge) (b : Block) : Sponge :=
  Vector.ofFn fun i => if h : i.val < 10 then fadd s[i] b[i.val] else s[i]

/-- `Absorb(block)` (R172). -/
def absorbBlock (T : Tables) (s : Sponge) (b : Block) : Sponge := tip5 T (addBlock s b)

/-- `SqueezeBlock()`: the output is read before the permutation (R173). -/
def squeezeBlock (T : Tables) (s : Sponge) : Block × Sponge := (rateOf s, tip5 T s)

/-- `Pad(n, x)`: the first `n` words of `x`, one ONE, then zeros (R176). -/
def padBlock (n : Nat) (x : Block) : Block :=
  Vector.ofFn fun i => if i.val < n then x[i] else if i.val = n then Config.ONE else 0

/-- The block HASHF absorbs (R178, C1): 10 elements as they stand, fewer padded. -/
def hashBlock (n : Nat) (x : Block) : Block := if n = 10 then x else padBlock n x

/-- Init, one absorb and one squeeze, the sponge work of HASHF (R178): the squeezed block and the state after it. -/
def hashSponge (T : Tables) (n : Nat) (x : Block) : Block × Sponge :=
  squeezeBlock T (absorbBlock T (initSponge .fixedLength) (hashBlock n x))

end Sys2Proof.Machine
end

