-- ==== Sys2Proof/Machine/SamplingOps.lean ====
section
/-! DEFINITION. Drawing elements through the sample queue (R200 to R208), on the sponge and the queue alone and for
any tables. -/

namespace Sys2Proof.Machine

open Sys2Proof

/-- What a sampling command works on: the sponge state and the queue, head first (R26, R200). -/
structure Sampler where
  sponge : Sponge
  q : List Word
deriving DecidableEq, Repr

/-- The order in which a squeezed block enters the queue: reversed for SMPI, forward for SMPS (R200, D26). -/
def queueOrder (kind : QKind) (out : Block) : List Word :=
  match kind with
  | .smpi => out.toList.reverse
  | .smps => out.toList
  | .none => out.toList

/-- `Refill(kind)` (R200): one squeeze. -/
def refill (T : Tables) (kind : QKind) (m : Sampler) : Sampler :=
  { sponge := (squeezeBlock T m.sponge).2, q := queueOrder kind (squeezeBlock T m.sponge).1 }

/-- The first two lines of `Next(kind)`: refill an empty queue, leave another alone (R200). -/
def refillIfEmpty (T : Tables) (kind : QKind) (m : Sampler) : Sampler :=
  match m.q with
  | [] => refill T kind m
  | _ :: _ => m

/-- `Next(kind)` (R200). The queue is not empty after `refillIfEmpty`, so the default of `headD` is never taken. -/
def nextElement (T : Tables) (kind : QKind) (m : Sampler) : Word × Sampler :=
  let m' := refillIfEmpty T kind m
  (m'.q.headD 0, { m' with q := m'.q.tail })

/-- `k` elements in stream order (R205). -/
def drawElements (T : Tables) (kind : QKind) : Nat → Sampler → List Word × Sampler
  | 0, m => ([], m)
  | k + 1, m =>
    let rest := drawElements T kind k (nextElement T kind m).2
    ((nextElement T kind m).1 :: rest.1, rest.2)

/-- The rejected element has the canonical value P - 1 (R202, D27). -/
def rejected (e : Word) : Bool := canon e == BitVec.ofNat 64 (Config.P - 1)

/-- The `repeat … until` loop of R201 with fuel, which counts the elements examined: none when every one of them was
rejected (R208). -/
def nextAccepted (T : Tables) : Nat → Sampler → Option (Word × Sampler)
  | 0, _ => none
  | fuel + 1, m =>
    if rejected (nextElement T .smpi m).1 then nextAccepted T fuel (nextElement T .smpi m).2
    else some (nextElement T .smpi m)

/-- The fuel for one index (R208; log 6): ten elements for each squeeze counted, and those in the queue. -/
def sampleFuel (m : Sampler) : Nat := 10 * Config.sampleRefills + m.q.length

/-- `k` accepted elements in the order they are met (R201), or none when the loop is stuck. -/
def drawAccepted (T : Tables) : Nat → Sampler → Option (List Word × Sampler)
  | 0, m => some ([], m)
  | k + 1, m =>
    match nextAccepted T (sampleFuel m) m with
    | none => none
    | some (e, m') =>
      match drawAccepted T k m' with
      | none => none
      | some (es, m'') => some (e :: es, m'')

/-- The index an accepted element gives: `canon(e) mod b`, a plain integer (R203). -/
def indexOf (b e : Word) : Word := canon e % b

/-- The bound is not 0 and a power of two (R201): `b & (b - 1)` is 0. -/
def boundOk (b : Word) : Bool := b != 0 && (b &&& (b - 1)) == 0

end Sys2Proof.Machine
end

