-- ==== Sys2Proof/Machine/Ops.lean ====
section
/-! DEFINITION. The named operations on the state: register writes, Flush (R27), RecordError (R220), the command
lifecycle (R264), error clear (R226) and reset (R260). The block takes no traps (R228): recording an error is its whole
exception mechanism, and `recordError` is the one operation that does it. -/

namespace Sys2Proof.Machine

open Sys2Proof

/-- `FR[rd] <- v` (R9). -/
def State.setFr (s : State) (rd : Reg) (v : Word) : State := { s with fr := s.fr.set rd.val v rd.isLt }

/-- `FR[k] <- ws[k]` for every index of `ws`; the registers beyond keep their values (R22, R267). -/
def State.setFrPrefix (s : State) (ws : List Word) : State :=
  { s with fr := Vector.ofFn fun i => (ws[i.val]?).getD s.fr[i] }

/-- FR[0..9] as a block (R22). -/
def State.frBlock (s : State) : Block := Vector.ofFn fun i => s.fr[i.val]

/-- `S[i] <- v` (R9). -/
def State.setSpongeWord (s : State) (i : Reg) (v : Word) : State := { s with sponge := s.sponge.set i.val v i.isLt }

/-- `S <- v` for the whole sponge state. -/
def State.setSponge (s : State) (v : Sponge) : State := { s with sponge := v }

/-- `DOM <- d` (R25). -/
def State.setDom (s : State) (d : Domain) : State := { s with dom := d }

/-- `CMP <- b` (R29). -/
def State.setCmp (s : State) (b : Bool) : State := { s with cmp := b }

/-- `Flush()` (R27). -/
def State.flush (s : State) : State := { s with q := [], qkind := .none }

/-- What a sampling command leaves: the sponge, the queue and its kind (R201, R205). -/
def State.setSampler (s : State) (kind : QKind) (m : Sampler) : State :=
  { s with sponge := m.sponge, q := m.q, qkind := kind }

/-- Where a sampling command starts: the queue is emptied when `start` is 1 (R201, R205). -/
def State.sampler (s : State) (start : Bool) : Sampler :=
  { sponge := s.sponge, q := if start then [] else s.q }

/-- `RecordError(code)` (R220): the first code is kept until the error state is cleared. -/
def State.recordError (s : State) (c : ErrCode) : State :=
  if s.err then s else { s with err := true, errCode := c }

/-- `raise Error(code)` in a command (R9, R222): nothing but the error state changes. The command then completes, as
every command does, in the engine step. -/
def raise (c : ErrCode) (s : State) : Host.Outcome State Fault Refusal := .next (s.recordError c)

/-- The error state cleared by ERR_CLR (R32, R226). -/
def State.clearError (s : State) : State := { s with err := false, errCode := .none }

/-- An accepted CMD value is latched (R28, R264): LASTCMD, PENDING and BUSY. -/
def State.latch (s : State) (v : Word) : State :=
  { s with lastCmd := v.extractLsb' 0 32, pending := some v, busy := true }

/-- The last line of the engine step (R264): `PENDING <- none; BUSY <- 0`. -/
def State.complete (s : State) : State := { s with pending := none, busy := false }

/-- `Reset()` (R260): the whole block as R38 says. What is still to happen around the block and what the host has
read belong to the environment and stay (log 1, log 2). -/
def State.resetBlock (s : State) : State :=
  { State.reset with events := s.events, replies := s.replies }

/-- The answer to a host read is delivered (R61). -/
def State.reply (s : State) (v : Word) : State := { s with replies := v :: s.replies }

end Sys2Proof.Machine
end

