-- ==== Sys2Proof/Machine/Operands.lean ====
section
/-! DEFINITION. The operand forms of the commands (R21, R22): an integer operand is any word; a field operand must be
canonical, or the command raises OPERAND_NONCANON. All operands are read before anything is written (R266). -/

namespace Sys2Proof.Machine

open Sys2Proof

/-- An integer operand, FR[r] (R21). -/
def State.intOperand (s : State) (r : Reg) : Word := s.fr[r]

/-- FR[r] is canonical (R21). -/
def State.fieldOk (s : State) (r : Reg) : Bool := decide (Canonical s.fr[r])

/-- FR[0..n-1] are canonical (R22, R174, R177, R178). -/
def State.prefixOk (s : State) (n : Nat) : Bool := (List.finRange 16).all fun i => decide (n ≤ i.val) || s.fieldOk i

/-- A command with one field operand (R21, R222): `k` gets the word, if it is canonical. -/
def withField (r : Reg) (s : State) (k : Word → Host.Outcome State Fault Refusal) : Host.Outcome State Fault Refusal :=
  if s.fieldOk r then k s.fr[r] else raise .operandNoncanon s

/-- A command with two field operands (R21, R222). -/
def withFields (r1 r2 : Reg) (s : State) (k : Word → Word → Host.Outcome State Fault Refusal) :
    Host.Outcome State Fault Refusal :=
  if s.fieldOk r1 && s.fieldOk r2 then k s.fr[r1] s.fr[r2] else raise .operandNoncanon s

/-- A command whose field operands are FR[0..n-1] (R174, R177, R178): `k` gets FR[0..9]. -/
def withPrefix (n : Nat) (s : State) (k : Block → Host.Outcome State Fault Refusal) :
    Host.Outcome State Fault Refusal :=
  if s.prefixOk n then k s.frBlock else raise .operandNoncanon s

end Sys2Proof.Machine
end

