-- ==== Sys2Proof/Machine/FieldUnit.lean ====
section
/-! DEFINITION. The field arithmetic unit: the meanings of FADD to FGT and NOP (40_field_arith.md). A meaning is the
`Execute` of R264; completing the command (PENDING, BUSY) is the engine step's. -/

namespace Sys2Proof.Machine

open Sys2Proof

/-- NOP (R119): nothing but the command lifecycle. -/
def execNop (s : State) : Host.Outcome State Fault Refusal := .next s

/-- FADD (R104). -/
def execFadd (rd rs1 rs2 : Reg) (s : State) : Host.Outcome State Fault Refusal :=
  withFields rs1 rs2 s fun a b => .next (s.setFr rd (fadd a b))

/-- FSUB (R105): FR[rs1] - FR[rs2]. -/
def execFsub (rd rs1 rs2 : Reg) (s : State) : Host.Outcome State Fault Refusal :=
  withFields rs1 rs2 s fun a b => .next (s.setFr rd (fsub a b))

/-- FNEG (R106). -/
def execFneg (rd rs1 : Reg) (s : State) : Host.Outcome State Fault Refusal :=
  withField rs1 s fun a => .next (s.setFr rd (fneg a))

/-- FMUL (R110). -/
def execFmul (rd rs1 rs2 : Reg) (s : State) : Host.Outcome State Fault Refusal :=
  withFields rs1 rs2 s fun a b => .next (s.setFr rd (fmul a b))

/-- FSQR (R111). -/
def execFsqr (rd rs1 : Reg) (s : State) : Host.Outcome State Fault Refusal :=
  withField rs1 s fun a => .next (s.setFr rd (fmul a a))

/-- FREDC (R112): FR[rs1] is the high half and FR[rs2] the low half, any words; no further reduction. -/
def execFredc (rd rs1 rs2 : Reg) (s : State) : Host.Outcome State Fault Refusal :=
  .next (s.setFr rd (montRed (joinWide (s.intOperand rs1) (s.intOperand rs2))))

/-- FTOM (R107): any word enters Montgomery form. -/
def execFtom (rd rs1 : Reg) (s : State) : Host.Outcome State Fault Refusal :=
  .next (s.setFr rd (toMont (s.intOperand rs1)))

/-- FCAN (R108). -/
def execFcan (rd rs1 : Reg) (s : State) : Host.Outcome State Fault Refusal :=
  withField rs1 s fun w => .next (s.setFr rd (canon w))

/-- FINV (R114): OPERAND_NONCANON is checked before INV_ZERO (R223). -/
def execFinv (rd rs1 : Reg) (s : State) : Host.Outcome State Fault Refusal :=
  withField rs1 s fun a => if a = 0 then raise .invZero s else .next (s.setFr rd (finv a))

/-- FPOW (R113): the base is a field operand, the exponent a plain integer. -/
def execFpow (rd rs1 rs2 : Reg) (s : State) : Host.Outcome State Fault Refusal :=
  withField rs1 s fun a => .next (s.setFr rd (fpow a (s.intOperand rs2)))

/-- FEQ (R116). -/
def execFeq (rs1 rs2 : Reg) (s : State) : Host.Outcome State Fault Refusal :=
  withFields rs1 rs2 s fun a b => .next (s.setCmp (cmpEq a b))

/-- FLT (R117). -/
def execFlt (rs1 rs2 : Reg) (s : State) : Host.Outcome State Fault Refusal :=
  withFields rs1 rs2 s fun a b => .next (s.setCmp (cmpLt a b))

/-- FGT (R118). -/
def execFgt (rs1 rs2 : Reg) (s : State) : Host.Outcome State Fault Refusal :=
  withFields rs1 rs2 s fun a b => .next (s.setCmp (cmpGt a b))

end Sys2Proof.Machine
end

