-- ==== Sys2Proof/Machine/SamplingUnit.lean ====
section
/-! DEFINITION. The sampling commands: the meanings of SMPI and SMPS (R201, R205). -/

namespace Sys2Proof.Machine

open Sys2Proof

/-- A sampling command may run: it starts a call, or its call is in progress (R201, R205). -/
def State.sampleSeqOk (s : State) (start : Bool) (kind : QKind) : Bool := start || s.qkind == kind

/-- SMPI (R201): the bound is read before any write; BAD_LENGTH, BAD_BOUND and SAMPLE_SEQ are checked in that order. A
loop that meets only rejected elements is stuck (R208). -/
def execSmpi (start : Bool) (rs1 : Reg) (count : Nat) (s : State) : Host.Outcome State Fault Refusal :=
  if 16 < count then raise .badLength s
  else if !boundOk (s.intOperand rs1) then raise .badBound s
  else if !s.sampleSeqOk start .smpi then raise .sampleSeq s
  else
    match drawAccepted Config.tables count (s.sampler start) with
    | none => .fault .samplingStuck
    | some (es, m) => .next ((s.setFrPrefix (es.map (indexOf (s.intOperand rs1)))).setSampler .smpi m)

/-- SMPS (R205): BAD_LENGTH before SAMPLE_SEQ; the words are written as they are drawn, in stream order (R207). -/
def execSmps (start : Bool) (count : Nat) (s : State) : Host.Outcome State Fault Refusal :=
  if 5 < count then raise .badLength s
  else if !s.sampleSeqOk start .smps then raise .sampleSeq s
  else
    let out := drawElements Config.tables .smps (3 * count) (s.sampler start)
    .next ((s.setFrPrefix out.1).setSampler .smps out.2)

end Sys2Proof.Machine
end

