-- ==== Sys2Proof/Machine/SpongeUnit.lean ====
section
/-! DEFINITION. The permutation and sponge commands: the meanings of SINIT, PERM, ABSORB, SQUEEZE, PADABS and HASHF
(R151, R171 to R178). Each flushes the sample queue after its other effects (R27). -/

namespace Sys2Proof.Machine

open Sys2Proof

/-- SINIT (R171). -/
def execSinit (dom : Domain) (s : State) : Host.Outcome State Fault Refusal :=
  .next ((s.setSponge (initSponge dom)).setDom dom).flush

/-- PERM (R151). -/
def execPerm (s : State) : Host.Outcome State Fault Refusal :=
  .next (s.setSponge (tip5 Config.tables s.sponge)).flush

/-- ABSORB (R174): all ten words are checked before S changes. -/
def execAbsorb (s : State) : Host.Outcome State Fault Refusal :=
  withPrefix 10 s fun block => .next (s.setSponge (absorbBlock Config.tables s.sponge block)).flush

/-- SQUEEZE (R175). -/
def execSqueeze (s : State) : Host.Outcome State Fault Refusal :=
  let out := squeezeBlock Config.tables s.sponge
  .next ((s.setFrPrefix out.1.toList).setSponge out.2).flush

/-- PADABS (R177): BAD_LENGTH before OPERAND_NONCANON; FR[n..15] are not read. -/
def execPadabs (n : Nat) (s : State) : Host.Outcome State Fault Refusal :=
  if 9 < n then raise .badLength s
  else withPrefix n s fun x => .next (s.setSponge (absorbBlock Config.tables s.sponge (padBlock n x))).flush

/-- HASHF (R178): the digest goes to FR[0..4]. -/
def execHashf (n : Nat) (s : State) : Host.Outcome State Fault Refusal :=
  if 10 < n then raise .badLength s
  else withPrefix n s fun x =>
    let out := hashSponge Config.tables n x
    .next (((s.setFrPrefix (out.1.toList.take 5)).setSponge out.2).setDom .fixedLength).flush

end Sys2Proof.Machine
end

