-- ==== Sys2Proof/Machine/Dispatch.lean ====
section
/-! DEFINITION. One arm per command: its `Execute` of R264, each arm one call of its meaning. -/

namespace Sys2Proof.Machine

open Sys2Proof

def exec (i : Instr) (s : State) : Host.Outcome State Fault Refusal :=
  match i with
  | .nop => Sys2Proof.Machine.execNop s
  | .fadd rd rs1 rs2 => Sys2Proof.Machine.execFadd rd rs1 rs2 s
  | .fsub rd rs1 rs2 => Sys2Proof.Machine.execFsub rd rs1 rs2 s
  | .fneg rd rs1 => Sys2Proof.Machine.execFneg rd rs1 s
  | .fmul rd rs1 rs2 => Sys2Proof.Machine.execFmul rd rs1 rs2 s
  | .fsqr rd rs1 => Sys2Proof.Machine.execFsqr rd rs1 s
  | .fredc rd rs1 rs2 => Sys2Proof.Machine.execFredc rd rs1 rs2 s
  | .ftom rd rs1 => Sys2Proof.Machine.execFtom rd rs1 s
  | .fcan rd rs1 => Sys2Proof.Machine.execFcan rd rs1 s
  | .finv rd rs1 => Sys2Proof.Machine.execFinv rd rs1 s
  | .fpow rd rs1 rs2 => Sys2Proof.Machine.execFpow rd rs1 rs2 s
  | .feq rs1 rs2 => Sys2Proof.Machine.execFeq rs1 rs2 s
  | .flt rs1 rs2 => Sys2Proof.Machine.execFlt rs1 rs2 s
  | .fgt rs1 rs2 => Sys2Proof.Machine.execFgt rs1 rs2 s
  | .sinit dom => Sys2Proof.Machine.execSinit dom s
  | .perm => Sys2Proof.Machine.execPerm s
  | .absorb => Sys2Proof.Machine.execAbsorb s
  | .squeeze => Sys2Proof.Machine.execSqueeze s
  | .padabs n => Sys2Proof.Machine.execPadabs n s
  | .hashf n => Sys2Proof.Machine.execHashf n s
  | .smpi start rs1 count => Sys2Proof.Machine.execSmpi start rs1 count s
  | .smps start count => Sys2Proof.Machine.execSmps start count s

end Sys2Proof.Machine
end

