-- ==== Sys2Proof/Machine/Window.lean ====
section
/-! DEFINITION. The host register window (R60 to R68): its map, what a host access is refused for, and what an accepted
one does. -/

namespace Sys2Proof.Machine

open Sys2Proof

/-- The registers of the window (R61). -/
inductive WinReg where
  | fr (i : Reg)
  | sponge (i : Reg)
  | cmd
  | status
  | ctrl
  | id
  | cfg
deriving DecidableEq, Repr

/-- The register at a byte offset: none where the offset is not a multiple of 8 (R62) or is unmapped (R64). -/
def windowReg (off : BitVec 9) : Option WinReg :=
  if off.toNat % 8 ≠ 0 then none
  else if h : off.toNat < 0x080 then some (.fr ⟨off.toNat / 8, by omega⟩)
  else if h : off.toNat < 0x100 then some (.sponge ⟨(off.toNat - 0x080) / 8, by omega⟩)
  else if off.toNat = 0x100 then some .cmd
  else if off.toNat = 0x108 then some .status
  else if off.toNat = 0x110 then some .ctrl
  else if off.toNat = 0x118 then some .id
  else if off.toNat = 0x120 then some .cfg
  else none

/-- The byte offset of a register (R61). -/
def WinReg.offset : WinReg → BitVec 9
  | .fr i => BitVec.ofNat 9 (8 * i.val)
  | .sponge i => BitVec.ofNat 9 (0x080 + 8 * i.val)
  | .cmd => 0x100
  | .status => 0x108
  | .ctrl => 0x110
  | .id => 0x118
  | .cfg => 0x120

/-- The register an access names: none for a width other than 8 bytes, a misaligned or an unmapped offset (R62, R64). -/
def accessReg : Access → Option WinReg
  | .read off width => if width = 8 then windowReg off else none
  | .write off width _ => if width = 8 then windowReg off else none

/-- What a write to a register is refused for (R24, R32, R64). -/
def writeError (r : WinReg) (v : Word) : Option ErrCode :=
  match r with
  | .fr _ => none
  | .sponge _ => if Canonical v then none else some .hostNoncanonWrite
  | .cmd => none
  | .status => some .hostAccess
  | .ctrl => if v >>> 2 = 0 then none else some .hostAccess
  | .id => some .hostAccess
  | .cfg => some .hostAccess

/-- What an access is refused for whatever BUSY is (R24, R32, R62, R64). -/
def formError (a : Access) : Option ErrCode :=
  match accessReg a, a with
  | none, _ => some .hostAccess
  | some _, .read _ _ => none
  | some r, .write _ _ v => writeError r v

/-- The accesses accepted while BUSY = 1: reads of STATUS, ID and CFG, and writes of CTRL (R265). They are the 8-byte
accesses alone: R265 does not say whether one of another width at these registers is among them, and the model counts
it as one of "every other access" (DESIGN CHOICE, safe, log 5), whose code is then open between BUSY_ACCESS and
HOST_ACCESS. That an 8-byte CTRL write with reserved bits is among them is DEDUCED (log 5). -/
def allowedWhileBusy (a : Access) : Bool :=
  match accessReg a, a with
  | some .status, .read _ _ => true
  | some .id, .read _ _ => true
  | some .cfg, .read _ _ => true
  | some .ctrl, .write _ _ _ => true
  | _, _ => false

/-- The open order between BUSY_ACCESS and another code, asked for this access (log 5). -/
def busyCodeFirst : Access → Bool
  | .read off width => Config.busyCodeFirst false off width 0
  | .write off width v => Config.busyCodeFirst true off width v

/-- What an access is refused for in a state (R225, R265). Where it is refused while BUSY = 1 and its form or value is
refused too, no rule orders the two codes, and which is recorded is open (log 5). -/
def accessError (s : State) (a : Access) : Option ErrCode :=
  if s.busy && !allowedWhileBusy a then
    match formError a with
    | none => some .busyAccess
    | some c => some (if busyCodeFirst a then .busyAccess else c)
  else formError a

/-- What an accepted read of a register returns (R61). CTRL reads as 0 (R32); CMD reads as LASTCMD (R35). -/
def windowRead (s : State) : WinReg → Word
  | .fr i => s.fr[i]
  | .sponge i => s.sponge[i]
  | .cmd => s.lastCmd.setWidth 64
  | .status => statusWord s
  | .ctrl => 0
  | .id => idWord
  | .cfg => cfgWord

/-- An accepted CMD write, BUSY being 0 (R264): while ERR = 1 only LASTCMD is updated (R224). -/
def hostWriteCmd (v : Word) (s : State) : State :=
  if s.err then { s with lastCmd := v.extractLsb' 0 32 } else s.latch v

/-- An accepted CTRL write (R32): SOFT_RESET clears the error state with everything else, so ERR_CLR adds nothing to
it. -/
def ctrlWrite (v : Word) (s : State) : State :=
  if v.getLsbD 1 then s.resetBlock else if v.getLsbD 0 then s.clearError else s

/-- An accepted write of a register (R61). A write of S also flushes the queue (R24). STATUS, ID and CFG writes are
never accepted (R64). -/
def windowWrite (r : WinReg) (v : Word) (s : State) : State :=
  match r with
  | .fr i => s.setFr i v
  | .sponge i => (s.setSpongeWord i v).flush
  | .cmd => hostWriteCmd v s
  | .status => s
  | .ctrl => ctrlWrite v s
  | .id => s
  | .cfg => s

/-- A refused access (R225): the error is recorded, a read returns 0, a write changes nothing else. -/
def refuseAccess (c : ErrCode) (a : Access) (s : State) : State :=
  match a with
  | .read _ _ => (s.recordError c).reply 0
  | .write _ _ _ => s.recordError c

/-- An accepted access of register `r`. -/
def acceptAccess (r : WinReg) (a : Access) (s : State) : State :=
  match a with
  | .read _ _ => s.reply (windowRead s r)
  | .write _ _ v => windowWrite r v s

/-- One host transaction (R61, R66). An access that names no register is refused (`formError`), so the last case is
never taken. -/
def hostAccess (a : Access) (s : State) : State :=
  match accessError s a, accessReg a with
  | some c, _ => refuseAccess c a s
  | none, some r => acceptAccess r a s
  | none, none => s

/-- The byte view of the window, little-endian (R63): the byte at `off` of the register that holds it; none where no
register is mapped. This is what the accepted read of the register returns, taken apart; the block itself moves whole
words only (R62). -/
def windowByte (s : State) (off : BitVec 9) : Option Byte :=
  (windowReg (BitVec.ofNat 9 (off.toNat / 8 * 8))).map fun r => wordByte (windowRead s r) (off.toNat % 8)

/-- The byte form of a field element: 8 bytes, little-endian, of the Montgomery word (R67). -/
def elementBytes (w : Word) : List Byte := (List.range 8).map (wordByte w)

/-- The element of a byte form, the source's `from_raw` (R67). -/
def elementOfBytes (b : Fin 8 → Byte) : Word := wordOfBytes b

/-- The digest held in FR[0..4] (R182). -/
def digest (s : State) : List Word := s.fr.toList.take 5

/-- The 40-byte form of a digest, slot 0 first (R68). -/
def digestBytes (d : List Word) : List Byte := d.flatMap elementBytes

end Sys2Proof.Machine
end

