-- ==== Sys2Proof/Machine/Engine.lean ====
section
/-! DEFINITION. The engine step (R264) and the events around the block (R69, R260). -/

namespace Sys2Proof.Machine

open Sys2Proof

/-- The error a word that is no command raises (R86, R87). -/
def decodeErrorCode : DecodeError → ErrCode
  | .illegalOpcode => .illegalOpcode
  | .reservedField => .reservedField

/-- How the engine ends a command (R264, R222): a command that ran, or that raised an error, completes. A stuck command
makes no step: it stays latched and BUSY stays 1 (R208, R269), so that the host can still reset the block. -/
def engineEnd (s : State) (o : Host.Outcome State Fault Refusal) : Host.Outcome State Fault Refusal :=
  match o with
  | .next t => .next t.complete
  | .fault .samplingStuck => .next s
  | .refused r => .refused r

/-- Executing the latched value `v` (R264): decode, then the command's rule, or the decode error. -/
def engineRun (v : Word) (s : State) : Host.Outcome State Fault Refusal :=
  match decodeCmd v with
  | .error e => .next (s.recordError (decodeErrorCode e)).complete
  | .ok i => engineEnd s (exec i s)

/-- `EngineStep()` (R264), enabled only when BUSY = 1 and a command is latched; otherwise the engine does nothing
(BUSY = 1 with nothing latched is reached by no run: DESIGN CHOICE, safe, log 10). -/
def engineStep (s : State) : Host.Outcome State Fault Refusal :=
  match s.busy, s.pending with
  | true, some v => engineRun v s
  | _, _ => .next s

/-- One event (R69, R260). -/
def runEvent (e : Event) (s : State) : Host.Outcome State Fault Refusal :=
  match e with
  | .host a => .next (hostAccess a s)
  | .engine => engineStep s
  | .powerOn => .next s.resetBlock

/-- The next step: the first event that waits; when none waits the engine takes its turn (R7: the time to it is
finite), which does nothing when no command is latched: the block then waits for the host (log 1). -/
def machineStep (s : State) : Host.Outcome State Fault Refusal :=
  match s.events with
  | [] => engineStep s
  | e :: rest => runEvent e { s with events := rest }

end Sys2Proof.Machine
end

