-- ==== Sys2Proof/Machine/Step.lean ====
section
/-! DEFINITION. One step of the machine, and a command placed where the next step runs it. -/

namespace Sys2Proof.Machine

open Sys2Proof

/-- One step of the machine (R69, R264): see `machineStep`. -/
def step (s : State) : Host.Outcome State Fault Refusal := machineStep s

/-- A row's word placed as the host's accepted CMD write places it (R264: LASTCMD, PENDING, BUSY), with the engine's
turn coming next (log 8). -/
def State.withFetchWord (s : State) (nbits w : Nat) : State :=
  { s.latch (tableWord nbits w) with events := .engine :: s.events }

end Sys2Proof.Machine
end

