-- ==== Sys2Proof/Safety.lean ====
section
/-! DEFINITION. The terms statements about the machine are written in: the invariant of the state, the value a word
stands for, what each command reads and writes (R22), and the errors a command meets in the order of R223. Nothing
here is used by `step`; each definition is a second reading of the rules, independent of the meanings. -/

namespace Sys2Proof.Safety

open Sys2Proof Sys2Proof.Machine

/-- The value in [0, P) a word stands for: `w · 2^-64 mod P`, with 2^-64 mod P = 0xFFFFFFFE00000001 (R10, R108). -/
def value (w : Word) : Nat := w.toNat * 0xFFFFFFFE00000001 % Config.P

/-- Every word of a sponge state is canonical (R24). -/
def SpongeCanonical (s : Sponge) : Prop := ∀ i : Fin 16, Canonical s[i]

/-- The invariant of the machine: S and Q are canonical (R24, R26), Q holds at most 10 words, an idle queue is empty
(R26, R27), BUSY says whether a command is latched and LASTCMD is then its word (R28), and ERRCODE is NONE exactly when
ERR is 0 (R220). -/
structure StateInv (s : State) : Prop where
  sponge_canonical : SpongeCanonical s.sponge
  q_canonical : ∀ w ∈ s.q, Canonical w
  q_length : s.q.length ≤ 10
  q_kind : s.qkind = .none → s.q = []
  busy_pending : s.busy = s.pending.isSome
  pending_last : ∀ v, s.pending = some v → s.lastCmd = v.extractLsb' 0 32
  err_code : s.err = true ↔ s.errCode ≠ .none

/-- The field operands of a command, which must be canonical (R21, R22, R174, R177, R178). -/
def fieldOperands : Instr → List Reg
  | .nop => []
  | .fadd _ rs1 rs2 => [rs1, rs2]
  | .fsub _ rs1 rs2 => [rs1, rs2]
  | .fneg _ rs1 => [rs1]
  | .fmul _ rs1 rs2 => [rs1, rs2]
  | .fsqr _ rs1 => [rs1]
  | .fredc _ _ _ => []
  | .ftom _ _ => []
  | .fcan _ rs1 => [rs1]
  | .finv _ rs1 => [rs1]
  | .fpow _ rs1 _ => [rs1]
  | .feq rs1 rs2 => [rs1, rs2]
  | .flt rs1 rs2 => [rs1, rs2]
  | .fgt rs1 rs2 => [rs1, rs2]
  | .sinit _ => []
  | .perm => []
  | .absorb => (List.finRange 16).take 10
  | .squeeze => []
  | .padabs n => (List.finRange 16).take n
  | .hashf n => (List.finRange 16).take n
  | .smpi _ _ _ => []
  | .smps _ _ => []

/-- A length or count out of its legal range (R83). -/
def lengthError : Instr → Bool
  | .padabs n => decide (9 < n)
  | .hashf n => decide (10 < n)
  | .smpi _ _ count => decide (16 < count)
  | .smps _ count => decide (5 < count)
  | _ => false

/-- A word is a power of two, 2^0 to 2^63 (R201, D28). -/
def IsPowerOfTwo (b : Word) : Prop := ∃ k : Fin 64, b.toNat = 2 ^ k.val

/-- SMPI's bound is 0 or not a power of two (R201). -/
def boundError (i : Instr) (s : State) : Bool :=
  match i with
  | .smpi _ rs1 _ => decide (¬ ∃ k : Fin 64, (s.fr[rs1]).toNat = 2 ^ k.val)
  | _ => false

/-- A sampling continuation whose call is not in progress (R201, R205). -/
def sequenceError (i : Instr) (s : State) : Bool :=
  match i with
  | .smpi false _ _ => decide (s.qkind ≠ .smpi)
  | .smps false _ => decide (s.qkind ≠ .smps)
  | _ => false

/-- A field operand that is not canonical (R21). -/
def operandError (i : Instr) (s : State) : Bool :=
  (fieldOperands i).any fun r => decide (Config.P ≤ (s.fr[r]).toNat)

/-- FINV of zero (R114). -/
def inverseError (i : Instr) (s : State) : Bool :=
  match i with
  | .finv _ rs1 => decide (s.fr[rs1] = 0)
  | _ => false

/-- The error a decoded command raises, the first in the order of R223 (its steps 4 to 8), or none. -/
def commandError (i : Instr) (s : State) : Option ErrCode :=
  if lengthError i then some .badLength
  else if boundError i s then some .badBound
  else if sequenceError i s then some .sampleSeq
  else if operandError i s then some .operandNoncanon
  else if inverseError i s then some .invZero
  else none

/-- The FR registers a command writes (R22, R267). -/
def writesFr : Instr → Reg → Bool
  | .nop, _ => false
  | .fadd rd _ _, r => r == rd
  | .fsub rd _ _, r => r == rd
  | .fneg rd _, r => r == rd
  | .fmul rd _ _, r => r == rd
  | .fsqr rd _, r => r == rd
  | .fredc rd _ _, r => r == rd
  | .ftom rd _, r => r == rd
  | .fcan rd _, r => r == rd
  | .finv rd _, r => r == rd
  | .fpow rd _ _, r => r == rd
  | .feq _ _, _ => false
  | .flt _ _, _ => false
  | .fgt _ _, _ => false
  | .sinit _, _ => false
  | .perm, _ => false
  | .absorb, _ => false
  | .squeeze, r => decide (r.val < 10)
  | .padabs _, _ => false
  | .hashf _, r => decide (r.val < 5)
  | .smpi _ _ count, r => decide (r.val < count)
  | .smps _ count, r => decide (r.val < 3 * count)

/-- The commands that write CMP: the three compares (R29). -/
def writesCmp : Instr → Bool
  | .feq _ _ => true
  | .flt _ _ => true
  | .fgt _ _ => true
  | _ => false

/-- The commands that write DOM (R25). -/
def writesDom : Instr → Bool
  | .sinit _ => true
  | .hashf _ => true
  | _ => false

/-- The commands that flush the sample queue (R27). -/
def flushesQueue : Instr → Bool
  | .sinit _ => true
  | .perm => true
  | .absorb => true
  | .squeeze => true
  | .padabs _ => true
  | .hashf _ => true
  | _ => false

/-- The sampling commands, the only others that change the queue (R27). -/
def samples : Instr → Bool
  | .smpi _ _ _ => true
  | .smps _ _ => true
  | _ => false

/-- The commands that may change the sponge state: those that permute it (R269) and SINIT. -/
def writesSponge (i : Instr) : Bool := flushesQueue i || samples i

/-- The state a command meets when the engine takes its turn: the engine's event, if it is the next one, is spent. -/
def afterTurn (s : State) : State := { s with events := s.events.tail }

/-- The engine moves next: its turn comes first in the events, or none waits. -/
def EngineNext (s : State) : Prop := s.events = [] ∨ s.events.head? = some .engine

/-- `k` squeezes from a sponge state, one after another: the blocks in order and the state after them (R173). -/
def squeezes (T : Tables) : Nat → Sponge → List Block × Sponge
  | 0, s => ([], s)
  | k + 1, s =>
    let rest := squeezes T k (squeezeBlock T s).2
    ((squeezeBlock T s).1 :: rest.1, rest.2)

/-- The stream of elements of a scalar-sampling call that starts from a sponge state: the blocks of `k` squeezes, in
stream order (R205 to R207). -/
def scalarStream (T : Tables) (k : Nat) (s : Sponge) : List Word := (squeezes T k s).1.flatMap fun b => b.toList

end Sys2Proof.Safety
end

