-- ==== Sys2Proof/Certificates/Slice0/Obligations.lean ====
section
/-! DEFINITION. The statements about the VYB-T5 core that are to be proved. Each docstring says which rule of spec/ it
formalises, and which log entry it rests on where a part of it is the model's choice. -/

open Sys2Proof Sys2Proof.Machine Sys2Proof.Safety

/-! ## Encoding -/

/-- Words written out from the rows of R85 and the vectors of 95_test_vectors.md decode to the commands they stand
for, and the pseudo-commands have the words R90 gives them. -/
def Obligations.SpecWordsDecode : Prop :=
  decode 0x00000000 = .ok .nop ∧ decode 0x00021301 = .ok (.fadd 3 1 2) ∧ decode 0x000A190A = .ok (.fpow 9 1 10) ∧
    decode 0x0002100C = .ok (.flt 1 2) ∧ decode 0x00000021 = .ok .perm ∧
    decode 0x0900F026 = .ok (.smpi true 15 16) ∧ decode 0x08500027 = .ok (.smps true 5) ∧
    encode Instr.vinit = 0x00000020 ∧ encode Instr.finit = 0x00100020 ∧ encode Instr.hashpair = 0x00A00025 ∧
    encode Instr.padz = 0x00000024

/-- Every well-formed command, with every operand at every value its field admits, is read back from its word (R81 to
R86). -/
def Obligations.DecodeReadsBackEncode : Prop :=
  ∀ i : Instr, i.WellFormed → decode (encode i) = .ok i

/-- A word that decodes is the word of the command it decodes to, and that command is well formed: no two words are one
command, and no bit is ignored (R85, R86). -/
def Obligations.EncodeWritesBackDecode : Prop :=
  ∀ (w : BitVec 32) (i : Instr), decode w = .ok i → i.WellFormed ∧ encode i = w

/-- No word matches two rows of R85. -/
def Obligations.OpcodeRowsAreDisjoint : Prop :=
  ∀ (w : BitVec 32) (op op' : Opcode), w &&& op.mask = op.matchWord → w &&& op'.mask = op'.matchWord → op = op'

/-- What the engine does with a latched word, in the stages of R87 and R86: nonzero bits 63:32 raise RESERVED_FIELD; then
the unassigned opcodes 0x0E to 0x1F and 0x28 to 0xFF raise ILLEGAL_OPCODE; then a word outside its opcode's row raises
RESERVED_FIELD; then a well-formed command runs. Every opcode byte falls under the second or the third stage. -/
def Obligations.LatchedWordIsDecodedInStages : Prop :=
  ∀ (s : State) (v : Word), s.busy = true → s.pending = some v → EngineNext s →
    (v.extractLsb' 32 32 ≠ 0 → step s = .next ((afterTurn s).recordError .reservedField).complete) ∧
    (v.extractLsb' 32 32 = 0 →
      let w := v.extractLsb' 0 32
      let op := (opField w).toNat
      ((0x0E ≤ op ∧ op ≤ 0x1F ∨ 0x28 ≤ op) → step s = .next ((afterTurn s).recordError .illegalOpcode).complete) ∧
      (¬ (0x0E ≤ op ∧ op ≤ 0x1F ∨ 0x28 ≤ op) → ∃ row : Opcode, row.byte = opField w ∧
        (w &&& row.mask ≠ row.matchWord → step s = .next ((afterTurn s).recordError .reservedField).complete) ∧
        (w &&& row.mask = row.matchWord → ∃ i : Instr, i.WellFormed ∧ encode i = w ∧
          step s = engineEnd (afterTurn s) (exec i (afterTurn s)))))

/-! ## The step and the command lifecycle -/

/-- When a command is latched, decodes to `i`, and the engine moves next, the step is `exec i` at the state after the
engine's turn is spent, with the completion of R264 around it; a stuck command stays latched (R208). Without BUSY = 1
the engine's turn changes nothing. -/
def Obligations.StepRunsTheLatchedCommand : Prop :=
  (∀ (s : State) (v : Word) (i : Instr), s.busy = true → s.pending = some v → decodeCmd v = .ok i → EngineNext s →
    step s = match exec i (afterTurn s) with
      | .next t => .next { t with busy := false, pending := none }
      | .fault .samplingStuck => .next (afterTurn s)
      | .refused r => .refused r) ∧
  (∀ s : State, s.busy = false → EngineNext s → step s = .next (afterTurn s))

/-- From every state, with every schedule of events, the machine takes a step: it never faults and never refuses (R222,
R225: every error is recorded, none stops the block). For a stuck SMPI, of which R208 says "with no step", and for
BUSY = 1 with nothing latched, that `step` answers a next state is the model's choice (log 6, log 10): the turn is spent
and nothing else changes. -/
def Obligations.StepNeverStops : Prop :=
  ∀ s : State, ∃ t : State, step s = .next t

/-- A latched command ends in one engine step with BUSY = 0, but for an SMPI whose loop finds no element to accept: it
stays as it was, BUSY = 1 (R269, R208). That the loop's fuel is `sampleFuel` is the model's choice (log 6). -/
def Obligations.EveryCommandCompletesOrIsStuck : Prop :=
  ∀ (s t : State) (v : Word), s.busy = true → s.pending = some v → EngineNext s → step s = .next t →
    (t.busy = false ∧ t.pending = none ∧ t.lastCmd = s.lastCmd) ∨
    (t = afterTurn s ∧ ∃ start rs1 count, decodeCmd v = .ok (.smpi start rs1 count) ∧
      drawAccepted Config.tables count (s.sampler start) = none)

/-- `HostWriteCMD` (R264): refused while BUSY = 1; only LASTCMD while ERR = 1 (R224); else latched (R28, R35). -/
def Obligations.CmdWriteLatchesTheCommand : Prop :=
  ∀ (s : State) (v : Word) (rest : List Event), s.events = .host (.write 0x100 8 v) :: rest →
    let u := { s with events := rest }
    (s.busy = true → step s = .next (u.recordError .busyAccess)) ∧
    (s.busy = false → s.err = true → step s = .next { u with lastCmd := v.extractLsb' 0 32 }) ∧
    (s.busy = false → s.err = false →
      step s = .next { u with lastCmd := v.extractLsb' 0 32, pending := some v, busy := true })

/-- The reset table (R38); S is the `VariableLength` initial state. -/
def Obligations.ResetValues : Prop :=
  (∀ i : Fin 16, State.reset.fr[i] = 0) ∧ (∀ i : Fin 16, State.reset.sponge[i] = 0) ∧
    State.reset.sponge = initSponge .variableLength ∧ State.reset.dom = .variableLength ∧ State.reset.q = [] ∧
    State.reset.qkind = .none ∧ State.reset.busy = false ∧ State.reset.pending = none ∧ State.reset.lastCmd = 0 ∧
    State.reset.cmp = false ∧ State.reset.err = false ∧ State.reset.errCode = .none

/-- Power-on reset and a CTRL write with bit 1 set do the same, at once, in every state, with a command in flight or
not: every piece of the block's state is as R38 says (R260, R262), and nothing is left to execute. A CTRL write with bit
0 alone clears the error state and nothing else (R226, R32), and one of 0 changes nothing (R32). The waiting events and the answers given belong to the
environment and stay (log 1, log 2). -/
def Obligations.ResetsAndErrorClear : Prop :=
  ∀ (s : State) (e : Event) (rest : List Event), s.events = e :: rest →
    ((e = .powerOn ∨ e = .host (.write 0x110 8 2) ∨ e = .host (.write 0x110 8 3)) →
      step s = .next { State.reset with events := rest, replies := s.replies }) ∧
    (e = .host (.write 0x110 8 1) →
      step s = .next { s with events := rest, err := false, errCode := .none }) ∧
    (e = .host (.write 0x110 8 0) → step s = .next { s with events := rest })

/-- The invariant holds at reset. -/
def Obligations.InvariantAtReset : Prop := StateInv State.reset

/-- Every step keeps the invariant, whatever the host does: S and the queue stay canonical (R24, R26), the queue holds at
most 10 words, BUSY tells whether a command is latched (R28), ERRCODE is NONE exactly when ERR is 0 (R220). -/
def Obligations.EveryStepKeepsTheInvariant : Prop :=
  ∀ s t : State, StateInv s → step s = .next t → StateInv t

/-! ## Errors -/

/-- `RecordError` keeps the first code, and only ERR_CLR and reset clear the error state (R220): in a step from ERR = 1
the error state stays, unless the event was power-on reset or a CTRL write of 1, 2 or 3. -/
def Obligations.ErrorStateIsSticky : Prop :=
  (∀ (s : State) (c : ErrCode), s.recordError c = if s.err then s else { s with err := true, errCode := c }) ∧
  ∀ s t : State, s.err = true → step s = .next t →
    (t.err = true ∧ t.errCode = s.errCode) ∨ s.events.head? = some .powerOn ∨
      ∃ v : Word, s.events.head? = some (.host (.write 0x110 8 v)) ∧ (v = 1 ∨ v = 2 ∨ v = 3)

/-- A decoded command that meets an error raises the first one in the order of R223 and changes nothing else (R222); one
that meets none records nothing and, but for a stuck SMPI (R208), completes. -/
def Obligations.CommandErrorsFollowTheCheckOrder : Prop :=
  ∀ (i : Instr) (s : State),
    (∀ c, commandError i s = some c →
      exec i s = .next (if s.err then s else { s with err := true, errCode := c })) ∧
    (commandError i s = none →
      (∃ t, exec i s = .next t ∧ t.err = s.err ∧ t.errCode = s.errCode) ∨
      (exec i s = .fault .samplingStuck ∧ ∃ start rs1 count, i = .smpi start rs1 count))

/-! ## Frames of the commands -/

/-- The registers a command does not list in R22 keep their values. -/
def Obligations.FrChangesOnlyAsListed : Prop :=
  ∀ (i : Instr) (s t : State) (r : Reg), exec i s = .next t → writesFr i r = false → t.fr[r] = s.fr[r]

/-- Frame of the other fields: CMP changes only in the compares (R29); DOM only in SINIT and HASHF (R25); S only in the
sponge and sampling commands; Q and QKIND only there too (R27). The command lifecycle and what belongs to the host are
not touched by a command's execution (R264). -/
def Obligations.StatusAndSpongeChangeOnlyAsListed : Prop :=
  ∀ (i : Instr) (s t : State), exec i s = .next t →
    (writesCmp i = false → t.cmp = s.cmp) ∧ (writesDom i = false → t.dom = s.dom) ∧
    (writesSponge i = false → t.sponge = s.sponge ∧ t.q = s.q ∧ t.qkind = s.qkind) ∧
    t.busy = s.busy ∧ t.pending = s.pending ∧ t.lastCmd = s.lastCmd ∧ t.events = s.events ∧ t.replies = s.replies

/-- Frame of the fourteen commands of the field unit on operands without error: only FR[rd], or only CMP, may change. -/
def Obligations.FieldUnitFrame : Prop :=
  ∀ (i : Instr) (s t : State), writesSponge i = false → commandError i s = none → exec i s = .next t →
    ∃ (fr : Vector Word 16) (cmp : Bool), t = { s with fr := fr, cmp := cmp } ∧
      (∀ r : Reg, writesFr i r = false → fr[r] = s.fr[r]) ∧ (writesCmp i = false → cmp = s.cmp)

/-- SINIT, PERM, ABSORB, SQUEEZE, PADABS and HASHF complete without error when their checks pass, and flush the queue
(R27). A command that raises an error does not. -/
def Obligations.SpongeCommandsFlush : Prop :=
  ∀ (i : Instr) (s : State), flushesQueue i = true →
    (commandError i s = none → ∃ t, exec i s = .next t ∧ t.q = [] ∧ t.qkind = .none) ∧
    (∀ c, commandError i s = some c → ∃ t, exec i s = .next t ∧ t.q = s.q ∧ t.qkind = s.qkind)

/-! ## Field arithmetic -/

/-- MontRed(x) is congruent to x · 2^-64 mod P, for every 128-bit x (R101): times 2^64 it is congruent to x. -/
def Obligations.MontRedIsCongruent : Prop :=
  ∀ x : BitVec 128, (montRed x).toNat * 2 ^ 64 % Config.P = x.toNat % Config.P

/-- MontRed(x) is below P when the high half of x is; it can be P or more when the high half is (R102). -/
def Obligations.MontRedRange : Prop :=
  (∀ x : BitVec 128, x.toNat / 2 ^ 64 < Config.P → (montRed x).toNat < Config.P) ∧
    montRed (joinWide 0xFFFFFFFFFFFFFFFF 0) = 0xFFFFFFFFFFFFFFFF

/-- The two forms of the borrow correction give the same word for every input (R120). -/
def Obligations.BorrowFormsAgree : Prop :=
  (∀ x : BitVec 128, montRedNotForm x = montRed x) ∧ 1 + ~~~(BitVec.ofNat 64 Config.P) = 0xFFFFFFFF

/-- The Montgomery product is canonical and stands for the product of the values (R103). -/
def Obligations.MontgomeryProduct : Prop :=
  ∀ a b : Word, Canonical a → Canonical b →
    Canonical (fmul a b) ∧ value (fmul a b) = value a * value b % Config.P

/-- `mont` and the value of a word are mutually inverse bijections on [0, P) (R10). -/
def Obligations.MontgomeryFormIsABijection : Prop :=
  (∀ v : Nat, v < Config.P → Canonical (mont v) ∧ value (mont v) = v) ∧
    (∀ w : Word, Canonical w → value w < Config.P ∧ mont (value w) = w)

/-- FADD, FSUB and FNEG (R104 to R106): on canonical operands the word, which is canonical, and the values; nothing but
FR[rd] changes. An operand of P or more raises OPERAND_NONCANON instead. -/
def Obligations.AdderResults : Prop :=
  ∀ (rd rs1 rs2 : Reg) (s : State),
    (Canonical s.fr[rs1] → Canonical s.fr[rs2] →
      (∃ w : Word, exec (.fadd rd rs1 rs2) s = .next (s.setFr rd w) ∧
        w.toNat = ((s.fr[rs1]).toNat + (s.fr[rs2]).toNat) % Config.P ∧
        value w = (value s.fr[rs1] + value s.fr[rs2]) % Config.P) ∧
      (∃ w : Word, exec (.fsub rd rs1 rs2) s = .next (s.setFr rd w) ∧
        w.toNat = ((s.fr[rs1]).toNat + (Config.P - (s.fr[rs2]).toNat)) % Config.P ∧
        (value w + value s.fr[rs2]) % Config.P = value s.fr[rs1])) ∧
    (Canonical s.fr[rs1] → ∃ w : Word, exec (.fneg rd rs1) s = .next (s.setFr rd w) ∧
      w.toNat = (Config.P - (s.fr[rs1]).toNat) % Config.P ∧ (value w + value s.fr[rs1]) % Config.P = 0) ∧
    (¬ (Canonical s.fr[rs1] ∧ Canonical s.fr[rs2]) →
      exec (.fadd rd rs1 rs2) s = .next (s.recordError .operandNoncanon) ∧
      exec (.fsub rd rs1 rs2) s = .next (s.recordError .operandNoncanon)) ∧
    (¬ Canonical s.fr[rs1] → exec (.fneg rd rs1) s = .next (s.recordError .operandNoncanon))

/-- FMUL and FSQR (R110, R111): on canonical operands the reduced product, which is canonical, and the values; nothing
but FR[rd] changes. An operand of P or more raises OPERAND_NONCANON instead. -/
def Obligations.MultiplierResults : Prop :=
  ∀ (rd rs1 rs2 : Reg) (s : State),
    (Canonical s.fr[rs1] → Canonical s.fr[rs2] →
      ∃ w : Word, exec (.fmul rd rs1 rs2) s = .next (s.setFr rd w) ∧ Canonical w ∧
        w.toNat * 2 ^ 64 % Config.P = (s.fr[rs1]).toNat * (s.fr[rs2]).toNat % Config.P ∧
        value w = value s.fr[rs1] * value s.fr[rs2] % Config.P) ∧
    (Canonical s.fr[rs1] →
      ∃ w : Word, exec (.fsqr rd rs1) s = .next (s.setFr rd w) ∧ Canonical w ∧
        w.toNat * 2 ^ 64 % Config.P = (s.fr[rs1]).toNat ^ 2 % Config.P ∧
        value w = value s.fr[rs1] ^ 2 % Config.P ∧ exec (.fmul rd rs1 rs1) s = .next (s.setFr rd w)) ∧
    (¬ (Canonical s.fr[rs1] ∧ Canonical s.fr[rs2]) →
      exec (.fmul rd rs1 rs2) s = .next (s.recordError .operandNoncanon)) ∧
    (¬ Canonical s.fr[rs1] → exec (.fsqr rd rs1) s = .next (s.recordError .operandNoncanon))

/-- FREDC on any two words (R112): the algorithm's word, congruent to {hi, lo} · 2^-64, canonical when hi is. -/
def Obligations.RawReductionResult : Prop :=
  ∀ (rd rs1 rs2 : Reg) (s : State), ∃ w : Word, exec (.fredc rd rs1 rs2) s = .next (s.setFr rd w) ∧
    w = montRed (s.fr[rs1] ++ s.fr[rs2] : BitVec 128) ∧
    w.toNat * 2 ^ 64 % Config.P = ((s.fr[rs1]).toNat * 2 ^ 64 + (s.fr[rs2]).toNat) % Config.P ∧
    (Canonical s.fr[rs1] → Canonical w)

/-- FTOM on any word, and FCAN on a canonical one (R107, R108): FTOM gives mont(v mod P), which stands for v mod P; FCAN
gives the value a word stands for, and raises OPERAND_NONCANON on a word of P or more. -/
def Obligations.ConversionResults : Prop :=
  ∀ (rd rs1 : Reg) (s : State),
    (∃ w : Word, exec (.ftom rd rs1) s = .next (s.setFr rd w) ∧ w = mont ((s.fr[rs1]).toNat % Config.P) ∧ Canonical w ∧
      value w = (s.fr[rs1]).toNat % Config.P) ∧
    (Canonical s.fr[rs1] → ∃ w : Word, exec (.fcan rd rs1) s = .next (s.setFr rd w) ∧ w.toNat = value s.fr[rs1]) ∧
    (¬ Canonical s.fr[rs1] → exec (.fcan rd rs1) s = .next (s.recordError .operandNoncanon))

/-- FPOW (R113): the base a canonical word, the exponent any integer; 0^0 is 1. A base of P or more raises
OPERAND_NONCANON instead. -/
def Obligations.PowerResult : Prop :=
  ∀ (rd rs1 rs2 : Reg) (s : State),
    (Canonical s.fr[rs1] →
      ∃ w : Word, exec (.fpow rd rs1 rs2) s = .next (s.setFr rd w) ∧ Canonical w ∧
        value w = value s.fr[rs1] ^ (s.fr[rs2]).toNat % Config.P) ∧
    (¬ Canonical s.fr[rs1] → exec (.fpow rd rs1 rs2) s = .next (s.recordError .operandNoncanon))

/-- FINV (R114): on a canonical word that is not 0, the inverse, which is the power P - 2; on 0, INV_ZERO with FR[rd]
unchanged; on a word of P or more, OPERAND_NONCANON. -/
def Obligations.InverseResult : Prop :=
  ∀ (rd rs1 : Reg) (s : State),
    (Canonical s.fr[rs1] → s.fr[rs1] ≠ 0 →
      ∃ w : Word, exec (.finv rd rs1) s = .next (s.setFr rd w) ∧ Canonical w ∧
        value w = value s.fr[rs1] ^ (Config.P - 2) % Config.P ∧ value s.fr[rs1] * value w % Config.P = 1 ∧
        fmul s.fr[rs1] w = Config.ONE) ∧
    (s.fr[rs1] = 0 → exec (.finv rd rs1) s = .next (s.recordError .invZero)) ∧
    (¬ Canonical s.fr[rs1] → exec (.finv rd rs1) s = .next (s.recordError .operandNoncanon))

/-- FEQ, FLT and FGT (R116 to R118): on canonical operands CMP compares values, and for FEQ comparing the words is the
same; on an operand of P or more, OPERAND_NONCANON. Nothing else changes. -/
def Obligations.CompareResults : Prop :=
  ∀ (rs1 rs2 : Reg) (s : State),
    (Canonical s.fr[rs1] → Canonical s.fr[rs2] →
      exec (.feq rs1 rs2) s = .next { s with cmp := decide (s.fr[rs1] = s.fr[rs2]) } ∧
      (s.fr[rs1] = s.fr[rs2] ↔ value s.fr[rs1] = value s.fr[rs2]) ∧
      exec (.flt rs1 rs2) s = .next { s with cmp := decide (value s.fr[rs1] < value s.fr[rs2]) } ∧
      exec (.fgt rs1 rs2) s = .next { s with cmp := decide (value s.fr[rs2] < value s.fr[rs1]) }) ∧
    (¬ (Canonical s.fr[rs1] ∧ Canonical s.fr[rs2]) →
      exec (.feq rs1 rs2) s = .next (s.recordError .operandNoncanon) ∧
      exec (.flt rs1 rs2) s = .next (s.recordError .operandNoncanon) ∧
      exec (.fgt rs1 rs2) s = .next (s.recordError .operandNoncanon))

/-! ## The permutation -/

/-- The machine's own tables meet the conditions of R144 and R150, whatever their open values are (log 3). -/
def Obligations.MachineTablesAreValid : Prop := Config.tables.Valid

/-- Split-and-lookup takes each byte of the word through SBOX, byte k to byte k (R143). If SBOX meets R144, it keeps words
canonical, and it is a bijection on [0, P) (R145). -/
def Obligations.SplitLookupIsABijection : Prop :=
  (∀ (T : Tables) (w : Word) (k : Fin 8), wordByte (splitLookup T w) k.val = T.sbox (wordByte w k.val)) ∧
  ∀ T : Tables, T.Valid →
    (∀ w : Word, Canonical w → Canonical (splitLookup T w)) ∧
    (∀ w w' : Word, splitLookup T w = splitLookup T w' → w = w') ∧
    (∀ w : Word, Canonical w → ∃ w' : Word, Canonical w' ∧ splitLookup T w' = w)

/-- The power map is x ↦ x^7 on values, and a bijection on the field (R146). -/
def Obligations.PowerMapIsTheSeventhPower : Prop :=
  (∀ w : Word, Canonical w → Canonical (powerMap w) ∧ value (powerMap w) = value w ^ 7 % Config.P) ∧
    (∀ w w' : Word, Canonical w → Canonical w' → powerMap w = powerMap w' → w = w') ∧
    (∀ w : Word, Canonical w → ∃ w' : Word, Canonical w' ∧ powerMap w' = w)

/-- The diffusion layer is the circulant product M[i][j] = MDS_COL[(i - j) mod 16], fully reduced, on words and so on
values (R147). -/
def Obligations.MdsLayerIsTheCirculantProduct : Prop :=
  ∀ (T : Tables) (u : Sponge) (i : Fin 16),
    ((mdsLayer T u)[i]).toNat = (∑ j : Fin 16, T.mdsCol (i - j) * (u[j]).toNat) % Config.P ∧
    value (mdsLayer T u)[i] = (∑ j : Fin 16, T.mdsCol (i - j) * value u[j]) % Config.P

/-- The reference circuit's method, both 32-bit halves through the same sums, gives the same words, and the correction
constant for an overflow past 2^64 is 2^64 mod P (R148). -/
def Obligations.MdsByHalvesAgrees : Prop :=
  (∀ (T : Tables) (u : Sponge), mdsLayerByHalves T u = mdsLayer T u) ∧ 2 ^ 64 % Config.P = 0xFFFFFFFF

/-- What Tip5 computes (R140 to R142): the rounds 0 to 4 in order, and in round r, at position i, the circulant sum over
the S-box layer's words (split-and-lookup at 0 to 3, the power map at 4 to 15) plus the Montgomery word of RC[16 r + i],
modulo P (R147, R150). -/
def Obligations.Tip5IsFiveRounds : Prop :=
  ∀ (T : Tables) (s : Sponge),
    tip5 T s = tip5Round T (tip5Round T (tip5Round T (tip5Round T (tip5Round T s 0) 1) 2) 3) 4 ∧
    ∀ (r : Fin 5) (i : Fin 16),
      ((tip5Round T s r)[i]).toNat =
        ((∑ j : Fin 16, T.mdsCol (i - j) * (if j.val < 4 then splitLookup T s[j] else powerMap s[j]).toNat) +
          T.rc ⟨16 * r.val + i.val, by omega⟩ * 2 ^ 64) % Config.P

/-- Tip5 is a bijection on canonical states if and only if its diffusion layer is, and its output is always canonical
(R152). On the finite set of canonical states a map into itself that takes no two to one is a bijection. -/
def Obligations.Tip5IsInjectiveIffTheMdsLayerIs : Prop :=
  ∀ T : Tables, T.Valid →
    (∀ s : Sponge, SpongeCanonical (tip5 T s)) ∧
    ((∀ s s' : Sponge, SpongeCanonical s → SpongeCanonical s' → tip5 T s = tip5 T s' → s = s') ↔
      ∀ u u' : Sponge, SpongeCanonical u → SpongeCanonical u' → mdsLayer T u = mdsLayer T u' → u = u')

/-- NOP changes nothing (R119); PERM permutes the sponge state and flushes the queue, and changes nothing else (R151). -/
def Obligations.NopAndPermResults : Prop :=
  ∀ s : State, exec .nop s = .next s ∧
    exec .perm s = .next { s with sponge := tip5 Config.tables s.sponge, q := [], qkind := .none }

/-! ## The sponge -/

/-- SINIT (R170, R171): the rate is 0, the capacity 0 or ONE by domain; DOM is written and the queue flushed; nothing
else changes. -/
def Obligations.SinitResult : Prop :=
  ∀ (dom : Domain) (s : State), ∃ sp : Sponge,
    exec (.sinit dom) s = .next { s with sponge := sp, dom := dom, q := [], qkind := .none } ∧
    (∀ i : Fin 16, sp[i] = if i.val < 10 then 0 else if dom = .fixedLength then 0x00000000FFFFFFFF else 0)

/-- ABSORB (R172, R174): ten canonical words are added to the rate, the capacity is not touched before the permutation,
and FR is not changed; a word of P or more in FR[0..9] raises OPERAND_NONCANON instead. -/
def Obligations.AbsorbResult : Prop :=
  ∀ s : State,
    ((∀ r : Reg, r.val < 10 → Canonical s.fr[r]) →
      ∃ sp : Sponge, exec .absorb s = .next { s with sponge := tip5 Config.tables sp, q := [], qkind := .none } ∧
        (∀ i : Fin 16, i.val < 10 → (sp[i]).toNat = ((s.sponge[i]).toNat + (s.fr[i]).toNat) % Config.P) ∧
        (∀ i : Fin 16, 10 ≤ i.val → sp[i] = s.sponge[i])) ∧
    (∀ r : Reg, r.val < 10 → ¬ Canonical s.fr[r] → exec .absorb s = .next (s.recordError .operandNoncanon))

/-- SQUEEZE (R173, R175): FR[0..9] take the rate as it was before the permutation. -/
def Obligations.SqueezeResult : Prop :=
  ∀ s : State, ∃ fr : Vector Word 16,
    exec .squeeze s = .next { s with fr := fr, sponge := tip5 Config.tables s.sponge, q := [], qkind := .none } ∧
    (∀ r : Reg, fr[r] = if r.val < 10 then s.sponge[r] else s.fr[r])

/-- PADABS n (R176, R177): for n ≤ 9 and n canonical words, FR[0..n-1], then one ONE, then zeros are added to the rate;
n > 9 raises BAD_LENGTH, and then a word of P or more in FR[0..n-1] OPERAND_NONCANON. FR[n..15] are not read. -/
def Obligations.PadabsResult : Prop :=
  ∀ (n : Nat) (s : State),
    (n ≤ 9 → (∀ r : Reg, r.val < n → Canonical s.fr[r]) →
      ∃ sp : Sponge, exec (.padabs n) s = .next { s with sponge := tip5 Config.tables sp, q := [], qkind := .none } ∧
        (∀ i : Fin 16, i.val < 10 → (sp[i]).toNat =
          ((s.sponge[i]).toNat + (if i.val < n then (s.fr[i]).toNat else if i.val = n then 0xFFFFFFFF else 0)) %
            Config.P) ∧
        (∀ i : Fin 16, 10 ≤ i.val → sp[i] = s.sponge[i])) ∧
    (9 < n → exec (.padabs n) s = .next (s.recordError .badLength)) ∧
    (n ≤ 9 → ∀ r : Reg, r.val < n → ¬ Canonical s.fr[r] →
      exec (.padabs n) s = .next (s.recordError .operandNoncanon))

/-- HASHF n (R178, 90_conflicts.md C1): for n ≤ 10 and n canonical words, the FixedLength state with the block in its
rate, padded when n < 10 and as it stands when n = 10, is permuted; its rate gives FR[0..4]; it is permuted once more.
n > 10 raises BAD_LENGTH, and then a word of P or more in FR[0..n-1] OPERAND_NONCANON. -/
def Obligations.HashfResult : Prop :=
  ∀ (n : Nat) (s : State),
    (n ≤ 10 → (∀ r : Reg, r.val < n → Canonical s.fr[r]) →
      ∃ (sp : Sponge) (fr : Vector Word 16),
        exec (.hashf n) s = .next
          { s with fr := fr, sponge := tip5 Config.tables (tip5 Config.tables sp), dom := .fixedLength, q := [],
                   qkind := .none } ∧
        (∀ i : Fin 16, sp[i] = if i.val < n then s.fr[i] else if i.val < 10 ∧ n < i.val then 0 else 0xFFFFFFFF) ∧
        (∀ r : Reg, fr[r] = if r.val < 5 then (tip5 Config.tables sp)[r] else s.fr[r])) ∧
    (10 < n → exec (.hashf n) s = .next (s.recordError .badLength)) ∧
    (n ≤ 10 → ∀ r : Reg, r.val < n → ¬ Canonical s.fr[r] →
      exec (.hashf n) s = .next (s.recordError .operandNoncanon))

/-- Padding is injective (R176, R185): two padded blocks are equal only when their lengths and their elements are. -/
def Obligations.PaddingIsInjective : Prop :=
  ∀ (n m : Nat) (x y : Block), n ≤ 9 → m ≤ 9 → padBlock n x = padBlock m y →
    n = m ∧ ∀ i : Fin 10, i.val < n → x[i] = y[i]

/-! ## Sampling -/

/-- Scalar sampling from an empty queue (R200, R206): n elements are the first n of the concatenated squeezes, exactly
ceil(n / 10) squeezes are made, and the rest of the last block stays in the queue. -/
def Obligations.ScalarDrawTakesTheStream : Prop :=
  ∀ (T : Tables) (n : Nat) (sp : Sponge),
    drawElements T .smps n ⟨sp, []⟩ =
      ((scalarStream T ((n + 9) / 10) sp).take n,
        ⟨(squeezes T ((n + 9) / 10) sp).2, (scalarStream T ((n + 9) / 10) sp).drop n⟩)

/-- SMPS (R205, R207): with count ≤ 5, and start = 1 or its call in progress, FR[0..3·count-1] take the next elements in
stream order; QKIND is SMPS. count > 5 raises BAD_LENGTH, and then a continuation of no such call SAMPLE_SEQ. -/
def Obligations.SmpsResult : Prop :=
  ∀ (start : Bool) (count : Nat) (s : State),
    (count ≤ 5 → (start = true ∨ s.qkind = .smps) →
      let out := drawElements Config.tables .smps (3 * count) ⟨s.sponge, if start then [] else s.q⟩
      ∃ fr : Vector Word 16,
        exec (.smps start count) s = .next { s with fr := fr, sponge := out.2.sponge, q := out.2.q, qkind := .smps } ∧
        out.1.length = 3 * count ∧
        (∀ r : Reg, fr[r] = if h : r.val < out.1.length then out.1[r.val] else s.fr[r])) ∧
    (5 < count → exec (.smps start count) s = .next (s.recordError .badLength)) ∧
    (count ≤ 5 → start = false → s.qkind ≠ .smps →
      exec (.smps start count) s = .next (s.recordError .sampleSeq))

/-- A scalar-sampling call may be cut in two commands (R206): the words of both, one after the other, and the sponge and
queue left, are those of one uninterrupted draw. -/
def Obligations.SmpsCallMayBeSplit : Prop :=
  ∀ (start : Bool) (c c' : Nat) (s : State), c ≤ 5 → c' ≤ 5 → (start = true ∨ s.qkind = .smps) →
    ∃ t t' : State, exec (.smps start c) s = .next t ∧ exec (.smps false c') t = .next t' ∧
      drawElements Config.tables .smps (3 * (c + c')) ⟨s.sponge, if start then [] else s.q⟩ =
        (t.fr.toList.take (3 * c) ++ t'.fr.toList.take (3 * c'), ⟨t'.sponge, t'.q⟩)

/-- Index sampling draws, in stream order, the elements whose value is not P - 1, and stops at the last one it needs
(R200 to R202): what it accepts is what is left of the elements it took when the rejected ones are struck out. -/
def Obligations.IndexDrawSkipsOnlyRejected : Prop :=
  ∀ (T : Tables) (k : Nat) (m m' : Sampler) (es : List Word), drawAccepted T k m = some (es, m') →
    es.length = k ∧ ∃ n : Nat, (drawElements T .smpi n m).2 = m' ∧
      es = (drawElements T .smpi n m).1.filter (fun e => decide (value e ≠ Config.P - 1)) ∧
      (k = 0 → n = 0) ∧ (∀ e, (drawElements T .smpi n m).1.getLast? = some e → value e ≠ Config.P - 1)

/-- An index-sampling refill puts the squeezed block into the queue in reverse (R200): ten elements from an empty queue
are out[9] down to out[0], and one squeeze is made. -/
def Obligations.IndexDrawReversesEachBlock : Prop :=
  ∀ (T : Tables) (sp : Sponge) (n : Nat), n < 10 →
    drawElements T .smpi (n + 1) ⟨sp, []⟩ =
      (((sp.toList.take 10).reverse).take (n + 1), ⟨tip5 T sp, ((sp.toList.take 10).reverse).drop (n + 1)⟩)

/-- SMPI (R201, R203): with count ≤ 16, a power of two as bound, start = 1 or its call in progress, and a loop that finds
its elements (R208), FR[k] takes the value of the k-th accepted element modulo the bound; QKIND is SMPI. Its errors are
BAD_LENGTH, BAD_BOUND and SAMPLE_SEQ, in that order. That the loop has the fuel it has is the model's choice (log 6). -/
def Obligations.SmpiResult : Prop :=
  ∀ (start : Bool) (rs1 : Reg) (count : Nat) (s : State),
    (∀ (es : List Word) (m : Sampler), count ≤ 16 → IsPowerOfTwo s.fr[rs1] → (start = true ∨ s.qkind = .smpi) →
      drawAccepted Config.tables count ⟨s.sponge, if start then [] else s.q⟩ = some (es, m) →
      ∃ fr : Vector Word 16,
        exec (.smpi start rs1 count) s = .next { s with fr := fr, sponge := m.sponge, q := m.q, qkind := .smpi } ∧
        es.length = count ∧
        (∀ r : Reg, (fr[r]).toNat =
          if h : r.val < es.length then value es[r.val] % (s.fr[rs1]).toNat else (s.fr[r]).toNat)) ∧
    (16 < count → exec (.smpi start rs1 count) s = .next (s.recordError .badLength)) ∧
    (count ≤ 16 → ¬ IsPowerOfTwo s.fr[rs1] → exec (.smpi start rs1 count) s = .next (s.recordError .badBound)) ∧
    (count ≤ 16 → IsPowerOfTwo s.fr[rs1] → start = false → s.qkind ≠ .smpi →
      exec (.smpi start rs1 count) s = .next (s.recordError .sampleSeq))

/-- An index-sampling call may be cut in two commands, the bound being held in FR[r] before each (R204): the indices and
the sponge and queue left are those of one uninterrupted draw. -/
def Obligations.SmpiCallMayBeSplit : Prop :=
  ∀ (start : Bool) (r : Reg) (c c' : Nat) (s : State) (es : List Word) (m : Sampler), c ≤ 16 → c' ≤ 16 →
    IsPowerOfTwo s.fr[r] → (start = true ∨ s.qkind = .smpi) →
    drawAccepted Config.tables (c + c') ⟨s.sponge, if start then [] else s.q⟩ = some (es, m) →
    ∃ t t' : State, exec (.smpi start r c) s = .next t ∧ exec (.smpi false r c') (t.setFr r s.fr[r]) = .next t' ∧
      es.map (indexOf s.fr[r]) = t.fr.toList.take c ++ t'.fr.toList.take c' ∧ t'.sponge = m.sponge ∧ t'.q = m.q

/-- The fuel of SMPI's loop is a bound in name only (R208; log 6): when it is spent, the loop would not end on any
fuel. -/
def Obligations.SpentFuelMeansNoEnd : Prop :=
  ∀ (T : Tables) (m : Sampler), nextAccepted T (sampleFuel m) m = none → ∀ fuel : Nat, nextAccepted T fuel m = none

/-! ## The host window -/

/-- The window map (R61, R62, R64): every register stands at its offset and no other does; the other offsets are those
not a multiple of 8 and those from 0x128 on. -/
def Obligations.WindowMap : Prop :=
  (∀ r : WinReg, windowReg r.offset = some r) ∧
    (∀ (off : BitVec 9) (r : WinReg), windowReg off = some r → off = r.offset) ∧
    (∀ off : BitVec 9, windowReg off = none ↔ off.toNat % 8 ≠ 0 ∨ 0x128 ≤ off.toNat) ∧
    (∀ i : Reg, (WinReg.fr i).offset.toNat = 8 * i.val ∧ (WinReg.sponge i).offset.toNat = 0x080 + 8 * i.val)

/-- STATUS bit by bit (R31), with the codes of R221 and the kinds of R26 written out, for a queue of at most 10 words
(R26). -/
def Obligations.StatusLayout : Prop :=
  ∀ s : State, s.q.length ≤ 10 →
    (statusWord s).getLsbD 0 = s.busy ∧ (statusWord s).getLsbD 1 = s.err ∧ (statusWord s).getLsbD 2 = s.cmp ∧
    (statusWord s).getLsbD 3 = decide (s.dom = .fixedLength) ∧ (statusWord s).extractLsb' 4 4 = 0 ∧
    (statusWord s).extractLsb' 8 8 =
      (match s.errCode with
        | .none => 0x00
        | .illegalOpcode => 0x01
        | .reservedField => 0x02
        | .badLength => 0x03
        | .operandNoncanon => 0x04
        | .invZero => 0x05
        | .badBound => 0x06
        | .sampleSeq => 0x07
        | .hostAccess => 0x10
        | .hostNoncanonWrite => 0x11
        | .busyAccess => 0x12) ∧
    ((statusWord s).extractLsb' 16 4).toNat = s.q.length ∧
    (statusWord s).extractLsb' 20 2 =
      (match s.qkind with
        | .none => 0
        | .smpi => 1
        | .smps => 2) ∧
    (statusWord s).extractLsb' 22 42 = 0

/-- What the host's 8-byte read of each register returns while BUSY = 0, and that it changes nothing else (R32 to R35,
R61, R65). -/
def Obligations.IdleReadsReturnTheRegisters : Prop :=
  ∀ (s : State) (r : WinReg) (rest : List Event), s.busy = false → s.events = .host (.read r.offset 8) :: rest →
    step s = .next { s with events := rest, replies :=
      (match r with
        | .fr i => s.fr[i]
        | .sponge i => s.sponge[i]
        | .cmd => s.lastCmd.setWidth 64
        | .status => statusWord s
        | .ctrl => 0
        | .id => 0x0000000135504954
        | .cfg => 0x0000030505060A10) :: s.replies }

/-- Host writes of FR and S while BUSY = 0 (R21, R24): FR takes any word; S takes a canonical word and the queue is
flushed; a word that is not canonical is refused with HOST_NONCANON_WRITE, and S keeps its value. -/
def Obligations.IdleWritesOfFrAndSponge : Prop :=
  ∀ (s : State) (i : Reg) (v : Word) (rest : List Event), s.busy = false →
    let u := { s with events := rest }
    (s.events = .host (.write (WinReg.fr i).offset 8 v) :: rest → step s = .next (u.setFr i v)) ∧
    (s.events = .host (.write (WinReg.sponge i).offset 8 v) :: rest →
      (Canonical v → step s = .next (u.setSpongeWord i v).flush) ∧
      (¬ Canonical v → step s = .next (u.recordError .hostNoncanonWrite)))

/-- Malformed accesses while BUSY = 0 (R62, R64, R32, R225): another width than 8, a misaligned or an unmapped offset, a
write to STATUS, ID or CFG, a CTRL write with reserved bits: HOST_ACCESS is recorded, a read returns 0, a write changes
nothing else. -/
def Obligations.MalformedAccessesAreRefused : Prop :=
  ∀ (s : State) (off : BitVec 9) (width : Nat) (v : Word) (rest : List Event), s.busy = false →
    let u := { s with events := rest }
    (s.events = .host (.read off width) :: rest → (width ≠ 8 ∨ off.toNat % 8 ≠ 0 ∨ 0x128 ≤ off.toNat) →
      step s = .next { u.recordError .hostAccess with replies := 0 :: s.replies }) ∧
    (s.events = .host (.write off width v) :: rest →
      (width ≠ 8 ∨ off.toNat % 8 ≠ 0 ∨ 0x128 ≤ off.toNat ∨ off = 0x108 ∨ off = 0x118 ∨ off = 0x120 ∨
        (off = 0x110 ∧ 4 ≤ v.toNat)) →
      step s = .next (u.recordError .hostAccess))

/-- The busy discipline (R265): while BUSY = 1, 8-byte reads of STATUS, ID and CFG and 8-byte writes of CTRL act as they
do while BUSY = 0; every other access is refused, with BUSY_ACCESS unless its own form or value is refused too, where the
code is one of the two. Three points are the model's (log 5): that a CTRL write of 4 or more records HOST_ACCESS is its
deduction from R221, R265 and R32; that an access of another width at these registers is one of the others, and that
the code of an access refused for two reasons is left open, are its choices. A refused access does not affect the
command in flight. -/
def Obligations.BusyDiscipline : Prop :=
  ∀ (s : State) (a : Access) (rest : List Event), s.busy = true → s.events = .host a :: rest →
    let u := { s with events := rest }
    (a = .read 0x108 8 → step s = .next { u with replies := statusWord s :: s.replies }) ∧
    (a = .read 0x118 8 → step s = .next { u with replies := idWord :: s.replies }) ∧
    (a = .read 0x120 8 → step s = .next { u with replies := cfgWord :: s.replies }) ∧
    (∀ v : Word, a = .write 0x110 8 v → step s = .next (if 4 ≤ v.toNat then u.recordError .hostAccess else ctrlWrite v u)) ∧
    (a ≠ .read 0x108 8 → a ≠ .read 0x118 8 → a ≠ .read 0x120 8 → (∀ v : Word, a ≠ .write 0x110 8 v) →
      ∃ c : ErrCode, (c = .busyAccess ∨ formError a = some c) ∧ (formError a = none → c = .busyAccess) ∧
        step s = .next (match a with
          | .read _ _ => { u.recordError c with replies := 0 :: s.replies }
          | .write _ _ _ => u.recordError c))

/-- The byte form of an element (R63, R67): byte k holds bits 8k+7 : 8k, and the word is made of its eight bytes again.
The byte view of the window shows the bytes of the register at the offset, lowest first. -/
def Obligations.ByteFormRoundTrip : Prop :=
  (∀ w : Word, elementOfBytes (fun k => wordByte w k.val) = w ∧
    ∀ (k : Fin 8) (b : Fin 8), (wordByte w k.val).getLsbD b.val = w.getLsbD (8 * k.val + b.val)) ∧
  (∀ (s : State) (r : WinReg) (k : Fin 8),
    windowByte s (r.offset + BitVec.ofNat 9 k.val) = some (wordByte (windowRead s r) k.val))
end

