-- ==== Sys2Proof/Laws/Decode.lean ====
section
/-! SUPPORT. The fields of a packed word (R81), and the opcode a byte names (R84). -/

namespace Sys2Proof

theorem packFields_op (op : Byte) (rd rs1 rs2 : Reg) (imm : Byte) : opField (packFields op rd rs1 rs2 imm) = op := by
  apply BitVec.eq_of_getLsbD_eq
  intro i hi
  simp only [opField, packFields, BitVec.getLsbD_extractLsb', BitVec.getLsbD_append]
  simp [hi, show i < 12 by omega, show i < 16 by omega, show i < 20 by omega, show i < 28 by omega]

theorem packFields_rd (op : Byte) (rd rs1 rs2 : Reg) (imm : Byte) : rdField (packFields op rd rs1 rs2 imm) = rd := by
  have h : (packFields op rd rs1 rs2 imm).extractLsb' 8 4 = BitVec.ofFin rd := by
    apply BitVec.eq_of_getLsbD_eq
    intro i hi
    simp only [packFields, BitVec.getLsbD_extractLsb', BitVec.getLsbD_append]
    simp [hi, show 8 + i < 12 by omega, show 8 + i < 16 by omega, show 8 + i < 20 by omega, show 8 + i < 28 by omega]
  simp [rdField, h]

theorem packFields_rs1 (op : Byte) (rd rs1 rs2 : Reg) (imm : Byte) :
    rs1Field (packFields op rd rs1 rs2 imm) = rs1 := by
  have h : (packFields op rd rs1 rs2 imm).extractLsb' 12 4 = BitVec.ofFin rs1 := by
    apply BitVec.eq_of_getLsbD_eq
    intro i hi
    simp only [packFields, BitVec.getLsbD_extractLsb', BitVec.getLsbD_append]
    simp [hi, show ¬ 12 + i < 12 by omega, show 12 + i < 16 by omega, show 12 + i < 20 by omega,
      show 12 + i < 28 by omega]
  simp [rs1Field, h]

theorem packFields_rs2 (op : Byte) (rd rs1 rs2 : Reg) (imm : Byte) :
    rs2Field (packFields op rd rs1 rs2 imm) = rs2 := by
  have h : (packFields op rd rs1 rs2 imm).extractLsb' 16 4 = BitVec.ofFin rs2 := by
    apply BitVec.eq_of_getLsbD_eq
    intro i hi
    simp only [packFields, BitVec.getLsbD_extractLsb', BitVec.getLsbD_append]
    simp [hi, show ¬ 16 + i < 16 by omega, show 16 + i < 20 by omega, show 16 + i < 28 by omega]
  simp [rs2Field, h]

theorem packFields_imm (op : Byte) (rd rs1 rs2 : Reg) (imm : Byte) :
    immField (packFields op rd rs1 rs2 imm) = imm := by
  apply BitVec.eq_of_getLsbD_eq
  intro i hi
  simp only [immField, packFields, BitVec.getLsbD_extractLsb', BitVec.getLsbD_append]
  simp [hi, show ¬ 20 + i < 20 by omega, show 20 + i < 28 by omega]

/-- The bits above imm are 0 (R81). -/
theorem packFields_res (op : Byte) (rd rs1 rs2 : Reg) (imm : Byte) :
    (packFields op rd rs1 rs2 imm).extractLsb' 28 4 = 0 := by
  apply BitVec.eq_of_getLsbD_eq
  intro i hi
  simp only [packFields, BitVec.getLsbD_extractLsb', BitVec.getLsbD_append]
  simp [hi, show ¬ 28 + i < 28 by omega]

/-- The opcode of a byte is the one whose byte it is (R84). -/
theorem Opcode.ofByte_byte (op : Opcode) : Opcode.ofByte op.byte = some op := by
  cases op <;> decide

theorem Opcode.ofByte_eq_some {b : Byte} {op : Opcode} (h : Opcode.ofByte b = some op) : op.byte = b := by
  simpa [Opcode.ofByte] using List.find?_some h

/-- The low byte of a row's mask is all ones and that of its match word is the opcode (R85). -/
theorem Opcode.row_low (op : Opcode) :
    op.mask.extractLsb' 0 8 = 0xFF ∧ op.matchWord.extractLsb' 0 8 = op.byte := by
  cases op <;> decide

/-- A decoded word was read in a row it matches (R86). -/
theorem decode_ok {w : BitVec 32} {i : Instr} (h : decode w = .ok i) :
    ∃ op, Opcode.ofByte (opField w) = some op ∧ w &&& op.mask = op.matchWord ∧ i = op.build w := by
  unfold decode at h
  split at h
  · cases h
  · rename_i op hop
    split at h
    · rename_i hm
      exact ⟨op, hop, hm, by cases h; rfl⟩
    · cases h

end Sys2Proof
end

