-- ==== Sys2Proof/Laws/State.lean ====
section
/-! SUPPORT. What each named update does to each field of the state: one lemma per field per update, so that no proof
unfolds a record update. -/

namespace Sys2Proof.Machine

open Sys2Proof

variable (s : State)

/-! `setFr` -/

@[simp] theorem State.setFr_fr (rd : Reg) (v : Word) : (s.setFr rd v).fr = s.fr.set rd.val v rd.isLt := rfl
@[simp] theorem State.setFr_sponge (rd : Reg) (v : Word) : (s.setFr rd v).sponge = s.sponge := rfl
@[simp] theorem State.setFr_dom (rd : Reg) (v : Word) : (s.setFr rd v).dom = s.dom := rfl
@[simp] theorem State.setFr_q (rd : Reg) (v : Word) : (s.setFr rd v).q = s.q := rfl
@[simp] theorem State.setFr_qkind (rd : Reg) (v : Word) : (s.setFr rd v).qkind = s.qkind := rfl
@[simp] theorem State.setFr_busy (rd : Reg) (v : Word) : (s.setFr rd v).busy = s.busy := rfl
@[simp] theorem State.setFr_pending (rd : Reg) (v : Word) : (s.setFr rd v).pending = s.pending := rfl
@[simp] theorem State.setFr_lastCmd (rd : Reg) (v : Word) : (s.setFr rd v).lastCmd = s.lastCmd := rfl
@[simp] theorem State.setFr_cmp (rd : Reg) (v : Word) : (s.setFr rd v).cmp = s.cmp := rfl
@[simp] theorem State.setFr_err (rd : Reg) (v : Word) : (s.setFr rd v).err = s.err := rfl
@[simp] theorem State.setFr_errCode (rd : Reg) (v : Word) : (s.setFr rd v).errCode = s.errCode := rfl
@[simp] theorem State.setFr_events (rd : Reg) (v : Word) : (s.setFr rd v).events = s.events := rfl
@[simp] theorem State.setFr_replies (rd : Reg) (v : Word) : (s.setFr rd v).replies = s.replies := rfl

/-! `setFrPrefix` -/

@[simp] theorem State.setFrPrefix_fr (ws : List Word) : (s.setFrPrefix ws).fr = Vector.ofFn fun i => (ws[i.val]?).getD s.fr[i] := rfl
@[simp] theorem State.setFrPrefix_sponge (ws : List Word) : (s.setFrPrefix ws).sponge = s.sponge := rfl
@[simp] theorem State.setFrPrefix_dom (ws : List Word) : (s.setFrPrefix ws).dom = s.dom := rfl
@[simp] theorem State.setFrPrefix_q (ws : List Word) : (s.setFrPrefix ws).q = s.q := rfl
@[simp] theorem State.setFrPrefix_qkind (ws : List Word) : (s.setFrPrefix ws).qkind = s.qkind := rfl
@[simp] theorem State.setFrPrefix_busy (ws : List Word) : (s.setFrPrefix ws).busy = s.busy := rfl
@[simp] theorem State.setFrPrefix_pending (ws : List Word) : (s.setFrPrefix ws).pending = s.pending := rfl
@[simp] theorem State.setFrPrefix_lastCmd (ws : List Word) : (s.setFrPrefix ws).lastCmd = s.lastCmd := rfl
@[simp] theorem State.setFrPrefix_cmp (ws : List Word) : (s.setFrPrefix ws).cmp = s.cmp := rfl
@[simp] theorem State.setFrPrefix_err (ws : List Word) : (s.setFrPrefix ws).err = s.err := rfl
@[simp] theorem State.setFrPrefix_errCode (ws : List Word) : (s.setFrPrefix ws).errCode = s.errCode := rfl
@[simp] theorem State.setFrPrefix_events (ws : List Word) : (s.setFrPrefix ws).events = s.events := rfl
@[simp] theorem State.setFrPrefix_replies (ws : List Word) : (s.setFrPrefix ws).replies = s.replies := rfl

/-! `setSpongeWord` -/

@[simp] theorem State.setSpongeWord_fr (i : Reg) (v : Word) : (s.setSpongeWord i v).fr = s.fr := rfl
@[simp] theorem State.setSpongeWord_sponge (i : Reg) (v : Word) : (s.setSpongeWord i v).sponge = s.sponge.set i.val v i.isLt := rfl
@[simp] theorem State.setSpongeWord_dom (i : Reg) (v : Word) : (s.setSpongeWord i v).dom = s.dom := rfl
@[simp] theorem State.setSpongeWord_q (i : Reg) (v : Word) : (s.setSpongeWord i v).q = s.q := rfl
@[simp] theorem State.setSpongeWord_qkind (i : Reg) (v : Word) : (s.setSpongeWord i v).qkind = s.qkind := rfl
@[simp] theorem State.setSpongeWord_busy (i : Reg) (v : Word) : (s.setSpongeWord i v).busy = s.busy := rfl
@[simp] theorem State.setSpongeWord_pending (i : Reg) (v : Word) : (s.setSpongeWord i v).pending = s.pending := rfl
@[simp] theorem State.setSpongeWord_lastCmd (i : Reg) (v : Word) : (s.setSpongeWord i v).lastCmd = s.lastCmd := rfl
@[simp] theorem State.setSpongeWord_cmp (i : Reg) (v : Word) : (s.setSpongeWord i v).cmp = s.cmp := rfl
@[simp] theorem State.setSpongeWord_err (i : Reg) (v : Word) : (s.setSpongeWord i v).err = s.err := rfl
@[simp] theorem State.setSpongeWord_errCode (i : Reg) (v : Word) : (s.setSpongeWord i v).errCode = s.errCode := rfl
@[simp] theorem State.setSpongeWord_events (i : Reg) (v : Word) : (s.setSpongeWord i v).events = s.events := rfl
@[simp] theorem State.setSpongeWord_replies (i : Reg) (v : Word) : (s.setSpongeWord i v).replies = s.replies := rfl

/-! `setSponge` -/

@[simp] theorem State.setSponge_fr (v : Sponge) : (s.setSponge v).fr = s.fr := rfl
@[simp] theorem State.setSponge_sponge (v : Sponge) : (s.setSponge v).sponge = v := rfl
@[simp] theorem State.setSponge_dom (v : Sponge) : (s.setSponge v).dom = s.dom := rfl
@[simp] theorem State.setSponge_q (v : Sponge) : (s.setSponge v).q = s.q := rfl
@[simp] theorem State.setSponge_qkind (v : Sponge) : (s.setSponge v).qkind = s.qkind := rfl
@[simp] theorem State.setSponge_busy (v : Sponge) : (s.setSponge v).busy = s.busy := rfl
@[simp] theorem State.setSponge_pending (v : Sponge) : (s.setSponge v).pending = s.pending := rfl
@[simp] theorem State.setSponge_lastCmd (v : Sponge) : (s.setSponge v).lastCmd = s.lastCmd := rfl
@[simp] theorem State.setSponge_cmp (v : Sponge) : (s.setSponge v).cmp = s.cmp := rfl
@[simp] theorem State.setSponge_err (v : Sponge) : (s.setSponge v).err = s.err := rfl
@[simp] theorem State.setSponge_errCode (v : Sponge) : (s.setSponge v).errCode = s.errCode := rfl
@[simp] theorem State.setSponge_events (v : Sponge) : (s.setSponge v).events = s.events := rfl
@[simp] theorem State.setSponge_replies (v : Sponge) : (s.setSponge v).replies = s.replies := rfl

/-! `setDom` -/

@[simp] theorem State.setDom_fr (d : Domain) : (s.setDom d).fr = s.fr := rfl
@[simp] theorem State.setDom_sponge (d : Domain) : (s.setDom d).sponge = s.sponge := rfl
@[simp] theorem State.setDom_dom (d : Domain) : (s.setDom d).dom = d := rfl
@[simp] theorem State.setDom_q (d : Domain) : (s.setDom d).q = s.q := rfl
@[simp] theorem State.setDom_qkind (d : Domain) : (s.setDom d).qkind = s.qkind := rfl
@[simp] theorem State.setDom_busy (d : Domain) : (s.setDom d).busy = s.busy := rfl
@[simp] theorem State.setDom_pending (d : Domain) : (s.setDom d).pending = s.pending := rfl
@[simp] theorem State.setDom_lastCmd (d : Domain) : (s.setDom d).lastCmd = s.lastCmd := rfl
@[simp] theorem State.setDom_cmp (d : Domain) : (s.setDom d).cmp = s.cmp := rfl
@[simp] theorem State.setDom_err (d : Domain) : (s.setDom d).err = s.err := rfl
@[simp] theorem State.setDom_errCode (d : Domain) : (s.setDom d).errCode = s.errCode := rfl
@[simp] theorem State.setDom_events (d : Domain) : (s.setDom d).events = s.events := rfl
@[simp] theorem State.setDom_replies (d : Domain) : (s.setDom d).replies = s.replies := rfl

/-! `setCmp` -/

@[simp] theorem State.setCmp_fr (b : Bool) : (s.setCmp b).fr = s.fr := rfl
@[simp] theorem State.setCmp_sponge (b : Bool) : (s.setCmp b).sponge = s.sponge := rfl
@[simp] theorem State.setCmp_dom (b : Bool) : (s.setCmp b).dom = s.dom := rfl
@[simp] theorem State.setCmp_q (b : Bool) : (s.setCmp b).q = s.q := rfl
@[simp] theorem State.setCmp_qkind (b : Bool) : (s.setCmp b).qkind = s.qkind := rfl
@[simp] theorem State.setCmp_busy (b : Bool) : (s.setCmp b).busy = s.busy := rfl
@[simp] theorem State.setCmp_pending (b : Bool) : (s.setCmp b).pending = s.pending := rfl
@[simp] theorem State.setCmp_lastCmd (b : Bool) : (s.setCmp b).lastCmd = s.lastCmd := rfl
@[simp] theorem State.setCmp_cmp (b : Bool) : (s.setCmp b).cmp = b := rfl
@[simp] theorem State.setCmp_err (b : Bool) : (s.setCmp b).err = s.err := rfl
@[simp] theorem State.setCmp_errCode (b : Bool) : (s.setCmp b).errCode = s.errCode := rfl
@[simp] theorem State.setCmp_events (b : Bool) : (s.setCmp b).events = s.events := rfl
@[simp] theorem State.setCmp_replies (b : Bool) : (s.setCmp b).replies = s.replies := rfl

/-! `flush` -/

@[simp] theorem State.flush_fr : (s.flush).fr = s.fr := rfl
@[simp] theorem State.flush_sponge : (s.flush).sponge = s.sponge := rfl
@[simp] theorem State.flush_dom : (s.flush).dom = s.dom := rfl
@[simp] theorem State.flush_q : (s.flush).q = [] := rfl
@[simp] theorem State.flush_qkind : (s.flush).qkind = .none := rfl
@[simp] theorem State.flush_busy : (s.flush).busy = s.busy := rfl
@[simp] theorem State.flush_pending : (s.flush).pending = s.pending := rfl
@[simp] theorem State.flush_lastCmd : (s.flush).lastCmd = s.lastCmd := rfl
@[simp] theorem State.flush_cmp : (s.flush).cmp = s.cmp := rfl
@[simp] theorem State.flush_err : (s.flush).err = s.err := rfl
@[simp] theorem State.flush_errCode : (s.flush).errCode = s.errCode := rfl
@[simp] theorem State.flush_events : (s.flush).events = s.events := rfl
@[simp] theorem State.flush_replies : (s.flush).replies = s.replies := rfl

/-! `setSampler` -/

@[simp] theorem State.setSampler_fr (kind : QKind) (m : Sampler) : (s.setSampler kind m).fr = s.fr := rfl
@[simp] theorem State.setSampler_sponge (kind : QKind) (m : Sampler) : (s.setSampler kind m).sponge = m.sponge := rfl
@[simp] theorem State.setSampler_dom (kind : QKind) (m : Sampler) : (s.setSampler kind m).dom = s.dom := rfl
@[simp] theorem State.setSampler_q (kind : QKind) (m : Sampler) : (s.setSampler kind m).q = m.q := rfl
@[simp] theorem State.setSampler_qkind (kind : QKind) (m : Sampler) : (s.setSampler kind m).qkind = kind := rfl
@[simp] theorem State.setSampler_busy (kind : QKind) (m : Sampler) : (s.setSampler kind m).busy = s.busy := rfl
@[simp] theorem State.setSampler_pending (kind : QKind) (m : Sampler) : (s.setSampler kind m).pending = s.pending := rfl
@[simp] theorem State.setSampler_lastCmd (kind : QKind) (m : Sampler) : (s.setSampler kind m).lastCmd = s.lastCmd := rfl
@[simp] theorem State.setSampler_cmp (kind : QKind) (m : Sampler) : (s.setSampler kind m).cmp = s.cmp := rfl
@[simp] theorem State.setSampler_err (kind : QKind) (m : Sampler) : (s.setSampler kind m).err = s.err := rfl
@[simp] theorem State.setSampler_errCode (kind : QKind) (m : Sampler) : (s.setSampler kind m).errCode = s.errCode := rfl
@[simp] theorem State.setSampler_events (kind : QKind) (m : Sampler) : (s.setSampler kind m).events = s.events := rfl
@[simp] theorem State.setSampler_replies (kind : QKind) (m : Sampler) : (s.setSampler kind m).replies = s.replies := rfl

/-! `clearError` -/

@[simp] theorem State.clearError_fr : (s.clearError).fr = s.fr := rfl
@[simp] theorem State.clearError_sponge : (s.clearError).sponge = s.sponge := rfl
@[simp] theorem State.clearError_dom : (s.clearError).dom = s.dom := rfl
@[simp] theorem State.clearError_q : (s.clearError).q = s.q := rfl
@[simp] theorem State.clearError_qkind : (s.clearError).qkind = s.qkind := rfl
@[simp] theorem State.clearError_busy : (s.clearError).busy = s.busy := rfl
@[simp] theorem State.clearError_pending : (s.clearError).pending = s.pending := rfl
@[simp] theorem State.clearError_lastCmd : (s.clearError).lastCmd = s.lastCmd := rfl
@[simp] theorem State.clearError_cmp : (s.clearError).cmp = s.cmp := rfl
@[simp] theorem State.clearError_err : (s.clearError).err = false := rfl
@[simp] theorem State.clearError_errCode : (s.clearError).errCode = .none := rfl
@[simp] theorem State.clearError_events : (s.clearError).events = s.events := rfl
@[simp] theorem State.clearError_replies : (s.clearError).replies = s.replies := rfl

/-! `latch` -/

@[simp] theorem State.latch_fr (v : Word) : (s.latch v).fr = s.fr := rfl
@[simp] theorem State.latch_sponge (v : Word) : (s.latch v).sponge = s.sponge := rfl
@[simp] theorem State.latch_dom (v : Word) : (s.latch v).dom = s.dom := rfl
@[simp] theorem State.latch_q (v : Word) : (s.latch v).q = s.q := rfl
@[simp] theorem State.latch_qkind (v : Word) : (s.latch v).qkind = s.qkind := rfl
@[simp] theorem State.latch_busy (v : Word) : (s.latch v).busy = true := rfl
@[simp] theorem State.latch_pending (v : Word) : (s.latch v).pending = some v := rfl
@[simp] theorem State.latch_lastCmd (v : Word) : (s.latch v).lastCmd = v.extractLsb' 0 32 := rfl
@[simp] theorem State.latch_cmp (v : Word) : (s.latch v).cmp = s.cmp := rfl
@[simp] theorem State.latch_err (v : Word) : (s.latch v).err = s.err := rfl
@[simp] theorem State.latch_errCode (v : Word) : (s.latch v).errCode = s.errCode := rfl
@[simp] theorem State.latch_events (v : Word) : (s.latch v).events = s.events := rfl
@[simp] theorem State.latch_replies (v : Word) : (s.latch v).replies = s.replies := rfl

/-! `complete` -/

@[simp] theorem State.complete_fr : (s.complete).fr = s.fr := rfl
@[simp] theorem State.complete_sponge : (s.complete).sponge = s.sponge := rfl
@[simp] theorem State.complete_dom : (s.complete).dom = s.dom := rfl
@[simp] theorem State.complete_q : (s.complete).q = s.q := rfl
@[simp] theorem State.complete_qkind : (s.complete).qkind = s.qkind := rfl
@[simp] theorem State.complete_busy : (s.complete).busy = false := rfl
@[simp] theorem State.complete_pending : (s.complete).pending = none := rfl
@[simp] theorem State.complete_lastCmd : (s.complete).lastCmd = s.lastCmd := rfl
@[simp] theorem State.complete_cmp : (s.complete).cmp = s.cmp := rfl
@[simp] theorem State.complete_err : (s.complete).err = s.err := rfl
@[simp] theorem State.complete_errCode : (s.complete).errCode = s.errCode := rfl
@[simp] theorem State.complete_events : (s.complete).events = s.events := rfl
@[simp] theorem State.complete_replies : (s.complete).replies = s.replies := rfl

/-! `resetBlock` -/

@[simp] theorem State.resetBlock_fr : (s.resetBlock).fr = Vector.replicate 16 0 := rfl
@[simp] theorem State.resetBlock_sponge : (s.resetBlock).sponge = Vector.replicate 16 0 := rfl
@[simp] theorem State.resetBlock_dom : (s.resetBlock).dom = .variableLength := rfl
@[simp] theorem State.resetBlock_q : (s.resetBlock).q = [] := rfl
@[simp] theorem State.resetBlock_qkind : (s.resetBlock).qkind = .none := rfl
@[simp] theorem State.resetBlock_busy : (s.resetBlock).busy = false := rfl
@[simp] theorem State.resetBlock_pending : (s.resetBlock).pending = none := rfl
@[simp] theorem State.resetBlock_lastCmd : (s.resetBlock).lastCmd = 0 := rfl
@[simp] theorem State.resetBlock_cmp : (s.resetBlock).cmp = false := rfl
@[simp] theorem State.resetBlock_err : (s.resetBlock).err = false := rfl
@[simp] theorem State.resetBlock_errCode : (s.resetBlock).errCode = .none := rfl
@[simp] theorem State.resetBlock_events : (s.resetBlock).events = s.events := rfl
@[simp] theorem State.resetBlock_replies : (s.resetBlock).replies = s.replies := rfl

/-! `reply` -/

@[simp] theorem State.reply_fr (v : Word) : (s.reply v).fr = s.fr := rfl
@[simp] theorem State.reply_sponge (v : Word) : (s.reply v).sponge = s.sponge := rfl
@[simp] theorem State.reply_dom (v : Word) : (s.reply v).dom = s.dom := rfl
@[simp] theorem State.reply_q (v : Word) : (s.reply v).q = s.q := rfl
@[simp] theorem State.reply_qkind (v : Word) : (s.reply v).qkind = s.qkind := rfl
@[simp] theorem State.reply_busy (v : Word) : (s.reply v).busy = s.busy := rfl
@[simp] theorem State.reply_pending (v : Word) : (s.reply v).pending = s.pending := rfl
@[simp] theorem State.reply_lastCmd (v : Word) : (s.reply v).lastCmd = s.lastCmd := rfl
@[simp] theorem State.reply_cmp (v : Word) : (s.reply v).cmp = s.cmp := rfl
@[simp] theorem State.reply_err (v : Word) : (s.reply v).err = s.err := rfl
@[simp] theorem State.reply_errCode (v : Word) : (s.reply v).errCode = s.errCode := rfl
@[simp] theorem State.reply_events (v : Word) : (s.reply v).events = s.events := rfl
@[simp] theorem State.reply_replies (v : Word) : (s.reply v).replies = v :: s.replies := rfl

/-! `recordError` keeps every field but the error state. -/

@[simp] theorem State.recordError_fr (c : ErrCode) : (s.recordError c).fr = s.fr := by
  unfold State.recordError; split <;> rfl
@[simp] theorem State.recordError_sponge (c : ErrCode) : (s.recordError c).sponge = s.sponge := by
  unfold State.recordError; split <;> rfl
@[simp] theorem State.recordError_dom (c : ErrCode) : (s.recordError c).dom = s.dom := by
  unfold State.recordError; split <;> rfl
@[simp] theorem State.recordError_q (c : ErrCode) : (s.recordError c).q = s.q := by
  unfold State.recordError; split <;> rfl
@[simp] theorem State.recordError_qkind (c : ErrCode) : (s.recordError c).qkind = s.qkind := by
  unfold State.recordError; split <;> rfl
@[simp] theorem State.recordError_busy (c : ErrCode) : (s.recordError c).busy = s.busy := by
  unfold State.recordError; split <;> rfl
@[simp] theorem State.recordError_pending (c : ErrCode) : (s.recordError c).pending = s.pending := by
  unfold State.recordError; split <;> rfl
@[simp] theorem State.recordError_lastCmd (c : ErrCode) : (s.recordError c).lastCmd = s.lastCmd := by
  unfold State.recordError; split <;> rfl
@[simp] theorem State.recordError_cmp (c : ErrCode) : (s.recordError c).cmp = s.cmp := by
  unfold State.recordError; split <;> rfl
@[simp] theorem State.recordError_events (c : ErrCode) : (s.recordError c).events = s.events := by
  unfold State.recordError; split <;> rfl
@[simp] theorem State.recordError_replies (c : ErrCode) : (s.recordError c).replies = s.replies := by
  unfold State.recordError; split <;> rfl
@[simp] theorem State.recordError_err (c : ErrCode) : (s.recordError c).err = true := by
  unfold State.recordError; split <;> simp_all
@[simp] theorem State.recordError_errCode (c : ErrCode) :
    (s.recordError c).errCode = if s.err then s.errCode else c := by
  unfold State.recordError; split <;> simp_all

/-- Under ERR = 1 the first code stays and nothing changes (R220). -/
theorem State.recordError_of_err {s : State} (h : s.err = true) (c : ErrCode) : s.recordError c = s := by
  simp [State.recordError, h]

/-! The registers after a write. -/

@[simp] theorem State.setFr_get_self (rd : Reg) (v : Word) : (s.setFr rd v).fr[rd] = v := by
  simp
theorem State.setFr_get_ne {r rd : Reg} (h : r ≠ rd) (v : Word) : (s.setFr rd v).fr[r] = s.fr[r] := by
  simpa using Vector.getElem_set_ne rd.isLt r.isLt (fun e => h (Fin.ext e.symm))

/-- A register after a prefix write: the word of the list, or its old value beyond it (R22). -/
theorem State.setFrPrefix_get (ws : List Word) (r : Reg) :
    (s.setFrPrefix ws).fr[r] = (ws[r.val]?).getD s.fr[r] := by
  simp

@[simp] theorem State.setSpongeWord_get_self (i : Reg) (v : Word) : (s.setSpongeWord i v).sponge[i] = v := by
  simp
theorem State.setSpongeWord_get_ne {j i : Reg} (h : j ≠ i) (v : Word) :
    (s.setSpongeWord i v).sponge[j] = s.sponge[j] := by
  simpa using Vector.getElem_set_ne i.isLt j.isLt (fun e => h (Fin.ext e.symm))

@[simp] theorem State.sampler_sponge (start : Bool) : (s.sampler start).sponge = s.sponge := rfl
@[simp] theorem State.sampler_start : (s.sampler true).q = [] := rfl
@[simp] theorem State.sampler_continue : (s.sampler false).q = s.q := rfl

@[simp] theorem State.frBlock_get (i : Fin 10) : s.frBlock[i] = s.fr[i.val] := by
  simp [State.frBlock]

end Sys2Proof.Machine
end

