-- ==== Sys2Proof/Laws/Operands.lean ====
section
/-! SUPPORT. The operand forms: when a command gets its operands, when it raises OPERAND_NONCANON, and nothing else. -/

namespace Sys2Proof.Machine

open Sys2Proof

variable {s : State}

theorem State.fieldOk_iff {r : Reg} : s.fieldOk r = true ↔ Canonical s.fr[r] := by
  simp [State.fieldOk]

theorem State.prefixOk_iff {n : Nat} : s.prefixOk n = true ↔ ∀ r : Reg, r.val < n → Canonical s.fr[r] := by
  simp only [State.prefixOk, List.all_eq_true, List.mem_finRange, forall_true_left, Bool.or_eq_true, decide_eq_true_eq,
    State.fieldOk_iff]
  exact forall_congr' fun r => by rw [← Nat.not_lt, imp_iff_not_or]

theorem withField_ok {r : Reg} {k : Word → Host.Outcome State Fault Refusal} (h : Canonical s.fr[r]) :
    withField r s k = k s.fr[r] := by
  rw [withField, if_pos (State.fieldOk_iff.2 h)]

theorem withField_error {r : Reg} {k : Word → Host.Outcome State Fault Refusal} (h : ¬ Canonical s.fr[r]) :
    withField r s k = .next (s.recordError .operandNoncanon) := by
  rw [withField, if_neg (by rwa [State.fieldOk_iff]), raise]

theorem withFields_ok {r1 r2 : Reg} {k : Word → Word → Host.Outcome State Fault Refusal} (h1 : Canonical s.fr[r1])
    (h2 : Canonical s.fr[r2]) : withFields r1 r2 s k = k s.fr[r1] s.fr[r2] := by
  rw [withFields, if_pos (by simp [State.fieldOk_iff.2 h1, State.fieldOk_iff.2 h2])]

theorem withFields_error {r1 r2 : Reg} {k : Word → Word → Host.Outcome State Fault Refusal}
    (h : ¬ (Canonical s.fr[r1] ∧ Canonical s.fr[r2])) :
    withFields r1 r2 s k = .next (s.recordError .operandNoncanon) := by
  rw [withFields, if_neg (by rwa [Bool.and_eq_true, State.fieldOk_iff, State.fieldOk_iff]), raise]

theorem withPrefix_ok {n : Nat} {k : Block → Host.Outcome State Fault Refusal}
    (h : ∀ r : Reg, r.val < n → Canonical s.fr[r]) : withPrefix n s k = k s.frBlock := by
  rw [withPrefix, if_pos (State.prefixOk_iff.2 h)]

theorem withPrefix_error {n : Nat} {k : Block → Host.Outcome State Fault Refusal}
    (h : ¬ ∀ r : Reg, r.val < n → Canonical s.fr[r]) :
    withPrefix n s k = .next (s.recordError .operandNoncanon) := by
  rw [withPrefix, if_neg (by rwa [State.prefixOk_iff]), raise]

/-- What a one-operand command can answer: its own result on a canonical operand, or OPERAND_NONCANON. -/
theorem withField_next {r : Reg} {k : Word → Host.Outcome State Fault Refusal} {t : State}
    (h : withField r s k = .next t) :
    (Canonical s.fr[r] ∧ k s.fr[r] = .next t) ∨ (¬ Canonical s.fr[r] ∧ t = s.recordError .operandNoncanon) := by
  by_cases hc : Canonical s.fr[r]
  · exact .inl ⟨hc, by rwa [withField_ok hc] at h⟩
  · rw [withField_error hc] at h
    exact .inr ⟨hc, by cases h; rfl⟩

/-- What a two-operand command can answer. -/
theorem withFields_next {r1 r2 : Reg} {k : Word → Word → Host.Outcome State Fault Refusal} {t : State}
    (h : withFields r1 r2 s k = .next t) :
    ((Canonical s.fr[r1] ∧ Canonical s.fr[r2]) ∧ k s.fr[r1] s.fr[r2] = .next t) ∨
      (¬ (Canonical s.fr[r1] ∧ Canonical s.fr[r2]) ∧ t = s.recordError .operandNoncanon) := by
  by_cases hc : Canonical s.fr[r1] ∧ Canonical s.fr[r2]
  · exact .inl ⟨hc, by rwa [withFields_ok hc.1 hc.2] at h⟩
  · rw [withFields_error hc] at h
    exact .inr ⟨hc, by cases h; rfl⟩

/-- What a command on FR[0..n-1] can answer. -/
theorem withPrefix_next {n : Nat} {k : Block → Host.Outcome State Fault Refusal} {t : State}
    (h : withPrefix n s k = .next t) :
    ((∀ r : Reg, r.val < n → Canonical s.fr[r]) ∧ k s.frBlock = .next t) ∨
      ((¬ ∀ r : Reg, r.val < n → Canonical s.fr[r]) ∧ t = s.recordError .operandNoncanon) := by
  by_cases hc : ∀ r : Reg, r.val < n → Canonical s.fr[r]
  · exact .inl ⟨hc, by rwa [withPrefix_ok hc] at h⟩
  · rw [withPrefix_error hc] at h
    exact .inr ⟨hc, by cases h; rfl⟩

end Sys2Proof.Machine
end

