-- ==== Sys2Proof/Laws/Exec.lean ====
section
/-! SUPPORT. One equation per command: its `exec` as the operand form and the named update it stands for. A proof
rewrites with these and with the lemmas of the operand forms, and unfolds no meaning. -/

namespace Sys2Proof.Machine

open Sys2Proof

variable (s : State)

theorem exec_nop : exec .nop s = .next s := rfl
theorem exec_fadd (rd rs1 rs2 : Reg) :
    exec (.fadd rd rs1 rs2) s = withFields rs1 rs2 s fun a b => .next (s.setFr rd (fadd a b)) := rfl
theorem exec_fsub (rd rs1 rs2 : Reg) :
    exec (.fsub rd rs1 rs2) s = withFields rs1 rs2 s fun a b => .next (s.setFr rd (fsub a b)) := rfl
theorem exec_fneg (rd rs1 : Reg) : exec (.fneg rd rs1) s = withField rs1 s fun a => .next (s.setFr rd (fneg a)) := rfl
theorem exec_fmul (rd rs1 rs2 : Reg) :
    exec (.fmul rd rs1 rs2) s = withFields rs1 rs2 s fun a b => .next (s.setFr rd (fmul a b)) := rfl
theorem exec_fsqr (rd rs1 : Reg) : exec (.fsqr rd rs1) s = withField rs1 s fun a => .next (s.setFr rd (fmul a a)) := rfl
theorem exec_fredc (rd rs1 rs2 : Reg) :
    exec (.fredc rd rs1 rs2) s = .next (s.setFr rd (montRed (joinWide s.fr[rs1] s.fr[rs2]))) := rfl
theorem exec_ftom (rd rs1 : Reg) : exec (.ftom rd rs1) s = .next (s.setFr rd (toMont s.fr[rs1])) := rfl
theorem exec_fcan (rd rs1 : Reg) : exec (.fcan rd rs1) s = withField rs1 s fun w => .next (s.setFr rd (canon w)) := rfl
theorem exec_finv (rd rs1 : Reg) :
    exec (.finv rd rs1) s =
      withField rs1 s fun a => if a = 0 then .next (s.recordError .invZero) else .next (s.setFr rd (finv a)) := rfl
theorem exec_fpow (rd rs1 rs2 : Reg) :
    exec (.fpow rd rs1 rs2) s = withField rs1 s fun a => .next (s.setFr rd (fpow a s.fr[rs2])) := rfl
theorem exec_feq (rs1 rs2 : Reg) :
    exec (.feq rs1 rs2) s = withFields rs1 rs2 s fun a b => .next (s.setCmp (cmpEq a b)) := rfl
theorem exec_flt (rs1 rs2 : Reg) :
    exec (.flt rs1 rs2) s = withFields rs1 rs2 s fun a b => .next (s.setCmp (cmpLt a b)) := rfl
theorem exec_fgt (rs1 rs2 : Reg) :
    exec (.fgt rs1 rs2) s = withFields rs1 rs2 s fun a b => .next (s.setCmp (cmpGt a b)) := rfl
theorem exec_sinit (dom : Domain) :
    exec (.sinit dom) s = .next ((s.setSponge (initSponge dom)).setDom dom).flush := rfl
theorem exec_perm : exec .perm s = .next (s.setSponge (tip5 Config.tables s.sponge)).flush := rfl
theorem exec_absorb :
    exec .absorb s = withPrefix 10 s fun x => .next (s.setSponge (absorbBlock Config.tables s.sponge x)).flush := rfl
theorem exec_squeeze :
    exec .squeeze s =
      .next ((s.setFrPrefix (rateOf s.sponge).toList).setSponge (tip5 Config.tables s.sponge)).flush := rfl

theorem exec_padabs_long {n : Nat} (h : 9 < n) : exec (.padabs n) s = .next (s.recordError .badLength) := by
  show execPadabs n s = _
  rw [execPadabs, if_pos h, raise]
theorem exec_padabs {n : Nat} (h : n ≤ 9) :
    exec (.padabs n) s =
      withPrefix n s fun x => .next (s.setSponge (absorbBlock Config.tables s.sponge (padBlock n x))).flush := by
  show execPadabs n s = _
  rw [execPadabs, if_neg (Nat.not_lt.2 h)]

theorem exec_hashf_long {n : Nat} (h : 10 < n) : exec (.hashf n) s = .next (s.recordError .badLength) := by
  show execHashf n s = _
  rw [execHashf, if_pos h, raise]
theorem exec_hashf {n : Nat} (h : n ≤ 10) :
    exec (.hashf n) s = withPrefix n s fun x =>
      .next (((s.setFrPrefix ((hashSponge Config.tables n x).1.toList.take 5)).setSponge
        (hashSponge Config.tables n x).2).setDom .fixedLength).flush := by
  show execHashf n s = _
  rw [execHashf, if_neg (Nat.not_lt.2 h)]

theorem exec_smpi_long {start : Bool} {rs1 : Reg} {count : Nat} (h : 16 < count) :
    exec (.smpi start rs1 count) s = .next (s.recordError .badLength) := by
  show execSmpi start rs1 count s = _
  rw [execSmpi, if_pos h, raise]
theorem exec_smpi_bound {start : Bool} {rs1 : Reg} {count : Nat} (h : count ≤ 16) (hb : boundOk s.fr[rs1] = false) :
    exec (.smpi start rs1 count) s = .next (s.recordError .badBound) := by
  show execSmpi start rs1 count s = _
  rw [execSmpi, if_neg (Nat.not_lt.2 h), State.intOperand, hb]
  rfl
theorem exec_smpi_seq {start : Bool} {rs1 : Reg} {count : Nat} (h : count ≤ 16) (hb : boundOk s.fr[rs1] = true)
    (hq : s.sampleSeqOk start .smpi = false) :
    exec (.smpi start rs1 count) s = .next (s.recordError .sampleSeq) := by
  show execSmpi start rs1 count s = _
  rw [execSmpi, if_neg (Nat.not_lt.2 h), State.intOperand, hb, hq]
  rfl
theorem exec_smpi_stuck {start : Bool} {rs1 : Reg} {count : Nat} (h : count ≤ 16) (hb : boundOk s.fr[rs1] = true)
    (hq : s.sampleSeqOk start .smpi = true) (hd : drawAccepted Config.tables count (s.sampler start) = none) :
    exec (.smpi start rs1 count) s = .fault .samplingStuck := by
  show execSmpi start rs1 count s = _
  rw [execSmpi, if_neg (Nat.not_lt.2 h), State.intOperand, hb, hq, hd]
  rfl
theorem exec_smpi {start : Bool} {rs1 : Reg} {count : Nat} {es : List Word} {m : Sampler} (h : count ≤ 16)
    (hb : boundOk s.fr[rs1] = true) (hq : s.sampleSeqOk start .smpi = true)
    (hd : drawAccepted Config.tables count (s.sampler start) = some (es, m)) :
    exec (.smpi start rs1 count) s = .next ((s.setFrPrefix (es.map (indexOf s.fr[rs1]))).setSampler .smpi m) := by
  show execSmpi start rs1 count s = _
  rw [execSmpi, if_neg (Nat.not_lt.2 h), State.intOperand, hb, hq, hd]
  rfl

theorem exec_smps_long {start : Bool} {count : Nat} (h : 5 < count) :
    exec (.smps start count) s = .next (s.recordError .badLength) := by
  show execSmps start count s = _
  rw [execSmps, if_pos h, raise]
theorem exec_smps_seq {start : Bool} {count : Nat} (h : count ≤ 5) (hq : s.sampleSeqOk start .smps = false) :
    exec (.smps start count) s = .next (s.recordError .sampleSeq) := by
  show execSmps start count s = _
  rw [execSmps, if_neg (Nat.not_lt.2 h), hq]
  rfl
theorem exec_smps {start : Bool} {count : Nat} (h : count ≤ 5) (hq : s.sampleSeqOk start .smps = true) :
    exec (.smps start count) s =
      .next ((s.setFrPrefix (drawElements Config.tables .smps (3 * count) (s.sampler start)).1).setSampler .smps
        (drawElements Config.tables .smps (3 * count) (s.sampler start)).2) := by
  show execSmps start count s = _
  rw [execSmps, if_neg (Nat.not_lt.2 h), hq]
  rfl

/-- A sampling command may run when it starts a call or its call is in progress (R201, R205). -/
theorem State.sampleSeqOk_iff {start : Bool} {kind : QKind} :
    s.sampleSeqOk start kind = true ↔ start = true ∨ s.qkind = kind := by
  simp [State.sampleSeqOk]

end Sys2Proof.Machine
end

