-- ==== Sys2Proof/Laws/SamplingOps.lean ====
section
/-! SUPPORT. The queue primitives: what one element costs, and the loops unfolded one turn. -/

namespace Sys2Proof.Machine

open Sys2Proof

/-- From a queue that holds an element, `Next` takes its head and squeezes nothing (R200). -/
@[simp] theorem nextElement_cons (T : Tables) (kind : QKind) (sp : Sponge) (e : Word) (q : List Word) :
    nextElement T kind ⟨sp, e :: q⟩ = (e, ⟨sp, q⟩) := rfl

/-- From an empty queue, `Next` squeezes once (R200). -/
theorem nextElement_nil (T : Tables) (kind : QKind) (sp : Sponge) :
    nextElement T kind ⟨sp, []⟩ =
      ((queueOrder kind (rateOf sp)).headD 0, ⟨tip5 T sp, (queueOrder kind (rateOf sp)).tail⟩) := rfl

/-- A squeezed block fills the queue with ten words (R200). -/
@[simp] theorem queueOrder_length (kind : QKind) (out : Block) : (queueOrder kind out).length = 10 := by
  cases kind <;> simp [queueOrder]

/-- The words of the queue are those of the block (R200). -/
theorem mem_queueOrder {kind : QKind} {out : Block} {w : Word} : w ∈ queueOrder kind out ↔ w ∈ out.toList := by
  cases kind <;> simp [queueOrder]

@[simp] theorem drawElements_zero (T : Tables) (kind : QKind) (m : Sampler) : drawElements T kind 0 m = ([], m) := rfl

theorem drawElements_succ (T : Tables) (kind : QKind) (k : Nat) (m : Sampler) :
    drawElements T kind (k + 1) m =
      ((nextElement T kind m).1 :: (drawElements T kind k (nextElement T kind m).2).1,
        (drawElements T kind k (nextElement T kind m).2).2) := rfl

/-- As many words are drawn as are asked for (R205). -/
@[simp] theorem drawElements_length (T : Tables) (kind : QKind) (k : Nat) (m : Sampler) :
    (drawElements T kind k m).1.length = k := by
  induction k generalizing m with
  | zero => rfl
  | succ k ih => simp [drawElements_succ, ih]

@[simp] theorem nextAccepted_zero (T : Tables) (m : Sampler) : nextAccepted T 0 m = none := rfl

theorem nextAccepted_succ (T : Tables) (fuel : Nat) (m : Sampler) :
    nextAccepted T (fuel + 1) m =
      if rejected (nextElement T .smpi m).1 then nextAccepted T fuel (nextElement T .smpi m).2
      else some (nextElement T .smpi m) := rfl

/-- What the loop answers is accepted (R201). -/
theorem nextAccepted_accepts {T : Tables} {fuel : Nat} {m m' : Sampler} {e : Word}
    (h : nextAccepted T fuel m = some (e, m')) : rejected e = false := by
  induction fuel generalizing m with
  | zero => cases h
  | succ fuel ih =>
    rw [nextAccepted_succ] at h
    split at h
    · exact ih h
    · rename_i hr
      rw [Option.some.inj h] at hr
      simpa using hr

@[simp] theorem drawAccepted_zero (T : Tables) (m : Sampler) : drawAccepted T 0 m = some ([], m) := rfl

/-- One index more: the loop found an element, and the rest were found after it (R201). -/
theorem drawAccepted_succ_eq_some {T : Tables} {k : Nat} {m m'' : Sampler} {es : List Word} :
    drawAccepted T (k + 1) m = some (es, m'') ↔
      ∃ e m' rest, nextAccepted T (sampleFuel m) m = some (e, m') ∧ drawAccepted T k m' = some (rest, m'') ∧
        es = e :: rest := by
  rw [drawAccepted]
  rcases h : nextAccepted T (sampleFuel m) m with _ | ⟨e, m'⟩
  · simp
  · dsimp only
    rcases h2 : drawAccepted T k m' with _ | ⟨rest, m1⟩ <;> simp only [Option.some.injEq, Prod.mk.injEq, reduceCtorEq]
    · exact ⟨False.elim, by rintro ⟨_, _, _, ⟨rfl, rfl⟩, h3, -⟩; rw [h2] at h3; cases h3⟩
    · constructor
      · rintro ⟨rfl, rfl⟩
        exact ⟨e, m', rest, ⟨rfl, rfl⟩, h2, rfl⟩
      · rintro ⟨_, _, _, ⟨rfl, rfl⟩, h3, rfl⟩
        rw [h2] at h3
        obtain ⟨rfl, rfl⟩ := Prod.mk.inj (Option.some.inj h3)
        exact ⟨rfl, rfl⟩

/-- As many indices are drawn as are asked for (R201). -/
theorem drawAccepted_length {T : Tables} {k : Nat} {m m' : Sampler} {es : List Word}
    (h : drawAccepted T k m = some (es, m')) : es.length = k := by
  induction k generalizing m es with
  | zero => cases h; rfl
  | succ k ih =>
    obtain ⟨e, m1, rest, -, h2, rfl⟩ := drawAccepted_succ_eq_some.1 h
    simp [ih h2]

end Sys2Proof.Machine
end

