-- ==== Sys2Proof/Laws/ExecNext.lean ====
section
/-! SUPPORT. What a command can leave, said once for all commands. A proof about every command takes `execNext` apart
instead of the meanings. -/

namespace Sys2Proof.Machine

open Sys2Proof Sys2Proof.Safety

/-- The states a command can leave: an error recorded, a register or CMP written, or one of the sponge commands' or
sampling commands' effects. -/
inductive ExecNext : Instr → State → State → Prop
  | error (i : Instr) (s : State) (c : ErrCode) (hc : c ≠ .none) : ExecNext i s (s.recordError c)
  | nop (s : State) : ExecNext .nop s s
  | fr (i : Instr) (s : State) (rd : Reg) (v : Word) (hw : writesFr i rd = true) (hs : writesSponge i = false) :
    ExecNext i s (s.setFr rd v)
  | cmp (i : Instr) (s : State) (b : Bool) (hw : writesCmp i = true) : ExecNext i s (s.setCmp b)
  | sinit (dom : Domain) (s : State) : ExecNext (.sinit dom) s ((s.setSponge (initSponge dom)).setDom dom).flush
  | permute (i : Instr) (s : State) (sp : Sponge) (h : i = .perm ∨ i = .absorb ∨ ∃ n, i = .padabs n) :
    ExecNext i s (s.setSponge (tip5 Config.tables sp)).flush
  | squeeze (s : State) :
    ExecNext .squeeze s ((s.setFrPrefix (rateOf s.sponge).toList).setSponge (tip5 Config.tables s.sponge)).flush
  | hashf (n : Nat) (x : Block) (s : State) :
    ExecNext (.hashf n) s (((s.setFrPrefix ((hashSponge Config.tables n x).1.toList.take 5)).setSponge
      (hashSponge Config.tables n x).2).setDom .fixedLength).flush
  | smpi (start : Bool) (rs1 : Reg) (count : Nat) (s : State) (es : List Word) (m : Sampler)
    (hd : drawAccepted Config.tables count (s.sampler start) = some (es, m)) :
    ExecNext (.smpi start rs1 count) s ((s.setFrPrefix (es.map (indexOf s.fr[rs1]))).setSampler .smpi m)
  | smps (start : Bool) (count : Nat) (s : State) :
    ExecNext (.smps start count) s
      ((s.setFrPrefix (drawElements Config.tables .smps (3 * count) (s.sampler start)).1).setSampler .smps
        (drawElements Config.tables .smps (3 * count) (s.sampler start)).2)

variable {s t : State}

/-- Outcomes that are next states are equal when the states are. -/
theorem next_inj {a b : State} (h : (.next a : Host.Outcome State Fault Refusal) = .next b) : b = a := by
  cases h
  rfl

/-- A one-operand command that writes a register. -/
theorem ExecNext.of_field {i : Instr} {r rd : Reg} {f : Word → Word} (hw : writesFr i rd = true)
    (hs : writesSponge i = false) (h : withField r s (fun a => .next (s.setFr rd (f a))) = .next t) :
    ExecNext i s t := by
  rcases withField_next h with ⟨-, h⟩ | ⟨-, rfl⟩
  · rw [next_inj h]
    exact .fr _ _ _ _ hw hs
  · exact .error _ _ _ (by decide)

/-- A two-operand command that writes a register. -/
theorem ExecNext.of_fields {i : Instr} {r1 r2 rd : Reg} {f : Word → Word → Word} (hw : writesFr i rd = true)
    (hs : writesSponge i = false) (h : withFields r1 r2 s (fun a b => .next (s.setFr rd (f a b))) = .next t) :
    ExecNext i s t := by
  rcases withFields_next h with ⟨-, h⟩ | ⟨-, rfl⟩
  · rw [next_inj h]
    exact .fr _ _ _ _ hw hs
  · exact .error _ _ _ (by decide)

/-- A compare. -/
theorem ExecNext.of_compare {i : Instr} {r1 r2 : Reg} {f : Word → Word → Bool} (hw : writesCmp i = true)
    (h : withFields r1 r2 s (fun a b => .next (s.setCmp (f a b))) = .next t) : ExecNext i s t := by
  rcases withFields_next h with ⟨-, h⟩ | ⟨-, rfl⟩
  · rw [next_inj h]
    exact .cmp _ _ _ hw
  · exact .error _ _ _ (by decide)

/-- A next state of a command is one of `ExecNext`. -/
theorem execNext {i : Instr} (h : exec i s = .next t) : ExecNext i s t := by
  cases i with
  | nop =>
    rw [next_inj h]
    exact .nop _
  | fadd rd a b => exact .of_fields (by simp [writesFr]) rfl (exec_fadd s rd a b ▸ h)
  | fsub rd a b => exact .of_fields (by simp [writesFr]) rfl (exec_fsub s rd a b ▸ h)
  | fmul rd a b => exact .of_fields (by simp [writesFr]) rfl (exec_fmul s rd a b ▸ h)
  | fneg rd a => exact .of_field (by simp [writesFr]) rfl (exec_fneg s rd a ▸ h)
  | fsqr rd a => exact .of_field (by simp [writesFr]) rfl (exec_fsqr s rd a ▸ h)
  | fcan rd a => exact .of_field (by simp [writesFr]) rfl (exec_fcan s rd a ▸ h)
  | fpow rd a b => exact .of_field (by simp [writesFr]) rfl (exec_fpow s rd a b ▸ h)
  | fredc rd a b =>
    rw [exec_fredc] at h
    rw [next_inj h]
    exact .fr _ _ _ _ (by simp [writesFr]) rfl
  | ftom rd a =>
    rw [exec_ftom] at h
    rw [next_inj h]
    exact .fr _ _ _ _ (by simp [writesFr]) rfl
  | finv rd a =>
    rw [exec_finv] at h
    rcases withField_next h with ⟨-, h⟩ | ⟨-, rfl⟩
    · split at h
      · rw [next_inj h]
        exact .error _ _ _ (by decide)
      · rw [next_inj h]
        exact .fr _ _ _ _ (by simp [writesFr]) rfl
    · exact .error _ _ _ (by decide)
  | feq a b => exact .of_compare rfl (exec_feq s a b ▸ h)
  | flt a b => exact .of_compare rfl (exec_flt s a b ▸ h)
  | fgt a b => exact .of_compare rfl (exec_fgt s a b ▸ h)
  | sinit d =>
    rw [exec_sinit] at h
    rw [next_inj h]
    exact .sinit _ _
  | perm =>
    rw [exec_perm] at h
    rw [next_inj h]
    exact .permute _ _ _ (.inl rfl)
  | absorb =>
    rw [exec_absorb] at h
    rcases withPrefix_next h with ⟨-, h⟩ | ⟨-, rfl⟩
    · rw [next_inj h]
      exact .permute _ _ _ (.inr (.inl rfl))
    · exact .error _ _ _ (by decide)
  | squeeze =>
    rw [exec_squeeze] at h
    rw [next_inj h]
    exact .squeeze _
  | padabs n =>
    rcases Nat.lt_or_ge 9 n with hn | hn
    · rw [exec_padabs_long _ hn] at h
      rw [next_inj h]
      exact .error _ _ _ (by decide)
    · rw [exec_padabs _ hn] at h
      rcases withPrefix_next h with ⟨-, h⟩ | ⟨-, rfl⟩
      · rw [next_inj h]
        exact .permute _ _ _ (.inr (.inr ⟨_, rfl⟩))
      · exact .error _ _ _ (by decide)
  | hashf n =>
    rcases Nat.lt_or_ge 10 n with hn | hn
    · rw [exec_hashf_long _ hn] at h
      rw [next_inj h]
      exact .error _ _ _ (by decide)
    · rw [exec_hashf _ hn] at h
      rcases withPrefix_next h with ⟨-, h⟩ | ⟨-, rfl⟩
      · rw [next_inj h]
        exact .hashf _ _ _
      · exact .error _ _ _ (by decide)
  | smpi st r n =>
    rcases Nat.lt_or_ge 16 n with hn | hn
    · rw [exec_smpi_long _ hn] at h
      rw [next_inj h]
      exact .error _ _ _ (by decide)
    rcases hb : boundOk s.fr[r] with _ | _
    · rw [exec_smpi_bound _ hn hb] at h
      rw [next_inj h]
      exact .error _ _ _ (by decide)
    rcases hq : s.sampleSeqOk st .smpi with _ | _
    · rw [exec_smpi_seq _ hn hb hq] at h
      rw [next_inj h]
      exact .error _ _ _ (by decide)
    rcases hd : drawAccepted Config.tables n (s.sampler st) with _ | ⟨es, m⟩
    · rw [exec_smpi_stuck _ hn hb hq hd] at h
      cases h
    · rw [exec_smpi _ hn hb hq hd] at h
      rw [next_inj h]
      exact .smpi _ _ _ _ _ _ hd
  | smps st n =>
    rcases Nat.lt_or_ge 5 n with hn | hn
    · rw [exec_smps_long _ hn] at h
      rw [next_inj h]
      exact .error _ _ _ (by decide)
    rcases hq : s.sampleSeqOk st .smps with _ | _
    · rw [exec_smps_seq _ hn hq] at h
      rw [next_inj h]
      exact .error _ _ _ (by decide)
    · rw [exec_smps _ hn hq] at h
      rw [next_inj h]
      exact .smps _ _ _

end Sys2Proof.Machine
end

