-- ==== Sys2Proof/Laws/FieldOps.lean ====
section
/-! SUPPORT. One lemma per field operation, saying its result as a natural number. -/

namespace Sys2Proof.Machine

open Sys2Proof

/-- The arithmetic behind `montRed_quotient`, on the two halves of the low word: `a = l0 + h * 2^32` with
`h = (l0 + l1) mod 2^32` has the product with P that R101 names. -/
theorem quotient_halves {l0 l1 h e b : Nat} (hh : l0 + l1 = h + e * 2 ^ 32) (hb : b + e + h = l0 + h * 2 ^ 32) :
    (l0 + h * 2 ^ 32) * Config.P = b * 2 ^ 64 + (l0 + l1 * 2 ^ 32) := by
  zify at hh hb ⊢
  linear_combination (-(2 : Int) ^ 64) * hb - 2 ^ 32 * hh

/-- Two 32-bit halves make a 64-bit word. -/
theorem halves_lt {l h : Nat} (hl : l < 2 ^ 32) (hh : h < 2 ^ 32) : l + h * 2 ^ 32 < 2 ^ 64 := by omega

/-- The split of the low word that R100 works with: its halves, the low word of the 65-bit sum and the carry. -/
theorem montRed_halves (lo : Word) :
    ∃ l0 l1 h e : Nat, lo.toNat = l0 + l1 * 2 ^ 32 ∧ l0 < 2 ^ 32 ∧ l1 < 2 ^ 32 ∧ l0 + l1 = h + e * 2 ^ 32 ∧ h < 2 ^ 32 ∧
      e ≤ 1 ∧ (lo <<< 32).toNat = l0 * 2 ^ 32 := by
  have hlo := lo.isLt
  refine ⟨lo.toNat % 2 ^ 32, lo.toNat / 2 ^ 32, (lo.toNat % 2 ^ 32 + lo.toNat / 2 ^ 32) % 2 ^ 32,
    (lo.toNat % 2 ^ 32 + lo.toNat / 2 ^ 32) / 2 ^ 32, by omega, by omega, by omega, by omega, by omega, by omega, ?_⟩
  rw [BitVec.toNat_shiftLeft, Nat.shiftLeft_eq]
  omega

/-- The quotient estimate of R100 is exact: `b` is the high half of `a * P`, and `a * P` has the low half `lo`. This is
the one fact behind R101 and R102. -/
theorem montRed_quotient (lo : Word) :
    ∃ a : Nat, a < 2 ^ 64 ∧ a * Config.P % 2 ^ 64 = lo.toNat ∧
      (BitVec.ofNat 64 (lo.toNat + (lo <<< 32).toNat) - (BitVec.ofNat 64 (lo.toNat + (lo <<< 32).toNat) >>> 32) -
        BitVec.ofNat 64 ((lo.toNat + (lo <<< 32).toNat) / 2 ^ 64) : Word).toNat = a * Config.P / 2 ^ 64 := by
  obtain ⟨l0, l1, h, e, hsplit, h0, h1, hh, hlt, he1, hshift⟩ := montRed_halves lo
  have hl : l0 + l1 * 2 ^ 32 < 2 ^ 64 := halves_lt h0 h1
  have ha64 : l0 + h * 2 ^ 32 < 2 ^ 64 := halves_lt h0 hlt
  obtain ⟨b, hb⟩ : ∃ b, b + e + h = l0 + h * 2 ^ 32 := ⟨l0 + h * 2 ^ 32 - h - e, by omega⟩
  have hp := quotient_halves hh hb
  have hsum : lo.toNat + (lo <<< 32).toNat = l0 + h * 2 ^ 32 + e * 2 ^ 64 := by rw [hshift, hsplit]; omega
  have ha : (BitVec.ofNat 64 (lo.toNat + (lo <<< 32).toNat)).toNat = l0 + h * 2 ^ 32 := by
    rw [BitVec.toNat_ofNat, hsum, Nat.add_mul_mod_self_right, Nat.mod_eq_of_lt ha64]
  have he : (BitVec.ofNat 64 ((lo.toNat + (lo <<< 32).toNat) / 2 ^ 64) : Word).toNat = e := by
    rw [BitVec.toNat_ofNat, hsum, Nat.add_mul_div_right _ _ (by norm_num), Nat.div_eq_of_lt ha64]; omega
  have hs : (BitVec.ofNat 64 (lo.toNat + (lo <<< 32).toNat) >>> 32 : Word).toNat = h := by
    rw [BitVec.toNat_ushiftRight, ha, Nat.shiftRight_eq_div_pow, Nat.add_mul_div_right _ _ (by norm_num),
      Nat.div_eq_of_lt h0, Nat.zero_add]
  refine ⟨l0 + h * 2 ^ 32, ha64, ?_, ?_⟩
  · rw [hp, hsplit, Nat.mul_add_mod_self_right, Nat.mod_eq_of_lt hl]
  · rw [hp, Nat.add_comm (b * 2 ^ 64), Nat.add_mul_div_right _ _ (by norm_num), Nat.div_eq_of_lt hl, Nat.zero_add]
    generalize BitVec.ofNat 64 (lo.toNat + (lo <<< 32).toNat) = aw at *
    generalize (BitVec.ofNat 64 ((lo.toNat + (lo <<< 32).toNat) / 2 ^ 64) : Word) = ew at *
    have h1 : (aw >>> 32) ≤ aw := by rw [BitVec.le_def, hs, ha]; omega
    have h2 : (aw - aw >>> 32).toNat = b + e := by rw [BitVec.toNat_sub_of_le h1, ha, hs]; omega
    rw [BitVec.toNat_sub_of_le (by rw [BitVec.le_def, h2, he]; omega), h2, he]
    omega

/-- What MontRed returns, as a number: with some `a` whose product with P has the low half of `x` as its low half, the
high half of `x` minus the high half of that product, plus P where that is negative (R100). -/
theorem montRed_toNat (x : BitVec 128) :
    ∃ a : Nat, a < 2 ^ 64 ∧ a * Config.P % 2 ^ 64 = x.toNat % 2 ^ 64 ∧
      (montRed x).toNat =
        if x.toNat / 2 ^ 64 < a * Config.P / 2 ^ 64 then x.toNat / 2 ^ 64 + Config.P - a * Config.P / 2 ^ 64
        else x.toNat / 2 ^ 64 - a * Config.P / 2 ^ 64 := by
  have hx := x.isLt
  obtain ⟨a, ha, hlow, hb⟩ := montRed_quotient (x.extractLsb' 0 64)
  have hlo : (x.extractLsb' 0 64).toNat = x.toNat % 2 ^ 64 := by simp [BitVec.extractLsb'_toNat]
  have hhi : (x.extractLsb' 64 64).toNat = x.toNat / 2 ^ 64 := by
    simp only [BitVec.extractLsb'_toNat, Nat.shiftRight_eq_div_pow]; omega
  refine ⟨a, ha, by rw [hlow, hlo], ?_⟩
  have hlt : (x.extractLsb' 64 64 < (BitVec.ofNat 64 ((x.extractLsb' 0 64).toNat + ((x.extractLsb' 0 64) <<< 32).toNat) -
      (BitVec.ofNat 64 ((x.extractLsb' 0 64).toNat + ((x.extractLsb' 0 64) <<< 32).toNat) >>> 32) -
        BitVec.ofNat 64 (((x.extractLsb' 0 64).toNat + ((x.extractLsb' 0 64) <<< 32).toNat) / 2 ^ 64) : Word)) ↔
      x.toNat / 2 ^ 64 < a * Config.P / 2 ^ 64 := by
    rw [BitVec.lt_def, hb, hhi]
  have hq : a * Config.P / 2 ^ 64 < Config.P := by
    rw [Nat.div_lt_iff_lt_mul (by decide), Nat.mul_comm]; exact Nat.mul_lt_mul_of_pos_left ha (by decide)
  unfold montRed
  simp only [hlt]
  split
  · rename_i h
    rw [BitVec.toNat_add, BitVec.toNat_sub, hb, hhi, BitVec.toNat_ofNat]
    generalize a * Config.P / 2 ^ 64 = b at *
    simp only [Config.P] at *
    omega
  · rename_i h
    rw [BitVec.toNat_sub_of_le (by rw [BitVec.le_def, hb, hhi]; omega), hb, hhi]

@[simp] theorem mulWide_toNat (a b : Word) : (mulWide a b).toNat = a.toNat * b.toNat := by
  have := Nat.mul_lt_mul'' a.isLt b.isLt
  simp only [mulWide, BitVec.toNat_ofNat]
  exact Nat.mod_eq_of_lt (by simpa using this)

@[simp] theorem joinWide_toNat (hi lo : Word) : (joinWide hi lo).toNat = hi.toNat * 2 ^ 64 + lo.toNat := by
  have := lo.isLt
  simp only [joinWide, BitVec.toNat_append]
  rw [Nat.shiftLeft_eq, Nat.mul_comm, Nat.two_pow_add_eq_or_of_lt this]

theorem mont_toNat (v : Nat) : (mont v).toNat = v * 2 ^ 64 % Config.P := by
  simp only [mont, BitVec.toNat_ofNat, Config.P]
  omega

theorem fadd_toNat (a b : Word) : (fadd a b).toNat = (a.toNat + b.toNat) % Config.P := by
  simp only [fadd, BitVec.toNat_ofNat, Config.P]
  omega

theorem fsub_toNat (a b : Word) : ((fsub a b).toNat : Int) = ((a.toNat : Int) - b.toNat) % Config.P := by
  simp only [fsub, BitVec.toNat_ofNat, Config.P]
  omega

theorem fneg_toNat (a : Word) : ((fneg a).toNat : Int) = ((Config.P : Int) - a.toNat) % Config.P := by
  simp only [fneg, BitVec.toNat_ofNat, Config.P]
  omega

/-- Every result of the adder is canonical (R109). -/
theorem fadd_canonical (a b : Word) : Canonical (fadd a b) := by
  rw [Canonical, fadd_toNat]; exact Nat.mod_lt _ (by decide)

theorem mont_canonical (v : Nat) : Canonical (mont v) := by
  rw [Canonical, mont_toNat]; exact Nat.mod_lt _ (by decide)

@[simp] theorem powLoop_zero (a e acc : Word) : powLoop a e 0 acc = acc := rfl

theorem powLoop_succ (a e acc : Word) (k : Nat) :
    powLoop a e (k + 1) acc = powLoop a e k (if e.getLsbD k then fmul (fmul acc acc) a else fmul acc acc) := rfl

end Sys2Proof.Machine
end

