-- ==== Sys2Proof/Laws/PerInstr.lean ====
section
/-! SUPPORT. Facts about every command as syntax, one lemma per constructor. The family `OpcodeByte`: the low byte of a
command's word is the opcode R84 gives it, and the four reserved bits above imm are 0 (R81). -/

namespace Sys2Proof.Laws.OpcodeByte

open Sys2Proof

/-- The opcode of a command (R84). -/
def opcodeOf : Instr → Opcode
  | .nop => .nop
  | .fadd _ _ _ => .fadd
  | .fsub _ _ _ => .fsub
  | .fneg _ _ => .fneg
  | .fmul _ _ _ => .fmul
  | .fsqr _ _ => .fsqr
  | .fredc _ _ _ => .fredc
  | .ftom _ _ => .ftom
  | .fcan _ _ => .fcan
  | .finv _ _ => .finv
  | .fpow _ _ _ => .fpow
  | .feq _ _ => .feq
  | .flt _ _ => .flt
  | .fgt _ _ => .fgt
  | .sinit _ => .sinit
  | .perm => .perm
  | .absorb => .absorb
  | .squeeze => .squeeze
  | .padabs _ => .padabs
  | .hashf _ => .hashf
  | .smpi _ _ _ => .smpi
  | .smps _ _ => .smps

/-- The opcode byte and the reserved bits of a command's word. -/
def Statement (i : Instr) : Prop :=
  opField (encode i) = (opcodeOf i).byte ∧ (encode i).extractLsb' 28 4 = 0

/-- Every packed word has the opcode it was packed with and reserved bits 0. -/
theorem of_pack {i : Instr} {op : Byte} {rd rs1 rs2 : Reg} {imm : Byte}
    (h : encode i = packFields op rd rs1 rs2 imm) (hop : op = (opcodeOf i).byte) : Statement i := by
  rw [Statement, h, ← hop]
  exact ⟨packFields_op .., packFields_res ..⟩

theorem nop : Statement (.nop) := of_pack rfl rfl
theorem fadd (rd rs1 rs2 : Reg) : Statement (.fadd rd rs1 rs2) := of_pack rfl rfl
theorem fsub (rd rs1 rs2 : Reg) : Statement (.fsub rd rs1 rs2) := of_pack rfl rfl
theorem fneg (rd rs1 : Reg) : Statement (.fneg rd rs1) := of_pack rfl rfl
theorem fmul (rd rs1 rs2 : Reg) : Statement (.fmul rd rs1 rs2) := of_pack rfl rfl
theorem fsqr (rd rs1 : Reg) : Statement (.fsqr rd rs1) := of_pack rfl rfl
theorem fredc (rd rs1 rs2 : Reg) : Statement (.fredc rd rs1 rs2) := of_pack rfl rfl
theorem ftom (rd rs1 : Reg) : Statement (.ftom rd rs1) := of_pack rfl rfl
theorem fcan (rd rs1 : Reg) : Statement (.fcan rd rs1) := of_pack rfl rfl
theorem finv (rd rs1 : Reg) : Statement (.finv rd rs1) := of_pack rfl rfl
theorem fpow (rd rs1 rs2 : Reg) : Statement (.fpow rd rs1 rs2) := of_pack rfl rfl
theorem feq (rs1 rs2 : Reg) : Statement (.feq rs1 rs2) := of_pack rfl rfl
theorem flt (rs1 rs2 : Reg) : Statement (.flt rs1 rs2) := of_pack rfl rfl
theorem fgt (rs1 rs2 : Reg) : Statement (.fgt rs1 rs2) := of_pack rfl rfl
theorem sinit (dom : Domain) : Statement (.sinit dom) := of_pack rfl rfl
theorem perm : Statement (.perm) := of_pack rfl rfl
theorem absorb : Statement (.absorb) := of_pack rfl rfl
theorem squeeze : Statement (.squeeze) := of_pack rfl rfl
theorem padabs (n : Nat) : Statement (.padabs n) := of_pack rfl rfl
theorem hashf (n : Nat) : Statement (.hashf n) := of_pack rfl rfl
theorem smpi (start : Bool) (rs1 : Reg) (count : Nat) : Statement (.smpi start rs1 count) := of_pack rfl rfl
theorem smps (start : Bool) (count : Nat) : Statement (.smps start count) := of_pack rfl rfl

end Sys2Proof.Laws.OpcodeByte
end

