-- ==== Sys2Proof/Laws/SpongeOps.lean ====
section
/-! SUPPORT. Each layer of the permutation and each sponge primitive, position by position. -/

namespace Sys2Proof.Machine

open Sys2Proof

/-- The word of eight bytes as their concatenation, byte 7 highest (R63). -/
theorem wordOfBytes_eq_append (b : Fin 8 → Byte) :
    wordOfBytes b = (b 7 ++ (b 6 ++ (b 5 ++ (b 4 ++ (b 3 ++ (b 2 ++ (b 1 ++ b 0 : BitVec 16) : BitVec 24) : BitVec 32) :
      BitVec 40) : BitVec 48) : BitVec 56) : BitVec 64) := by
  have append_toNat {n : Nat} (x : Byte) (y : BitVec n) : (x ++ y).toNat = x.toNat * 2 ^ n + y.toNat := by
    rw [BitVec.toNat_append, Nat.shiftLeft_eq, Nat.mul_comm, Nat.two_pow_add_eq_or_of_lt y.isLt]
  have lt (k : Fin 8) := (b k).isLt
  have := lt 0; have := lt 1; have := lt 2; have := lt 3; have := lt 4; have := lt 5; have := lt 6; have := lt 7
  apply BitVec.eq_of_toNat_eq
  simp only [wordOfBytes, append_toNat, BitVec.toNat_ofNat]
  generalize (b 0).toNat = x0 at *
  generalize (b 1).toNat = x1 at *
  generalize (b 2).toNat = x2 at *
  generalize (b 3).toNat = x3 at *
  generalize (b 4).toNat = x4 at *
  generalize (b 5).toNat = x5 at *
  generalize (b 6).toNat = x6 at *
  generalize (b 7).toNat = x7 at *
  omega

/-- The exact sum of a row as a sum over the positions (R147). -/
theorem mdsSum_eq_sum (T : Tables) (u : Sponge) (i : Fin 16) :
    mdsSum T u i = ∑ j : Fin 16, T.mdsCol (i - j) * (u[j]).toNat := by
  rw [mdsSum, ← List.ofFn_eq_map, List.sum_ofFn]

@[simp] theorem sboxLayer_get (T : Tables) (s : Sponge) (i : Fin 16) :
    (sboxLayer T s)[i] = if i.val < 4 then splitLookup T s[i] else powerMap s[i] := by
  simp [sboxLayer]

@[simp] theorem mdsLayer_get (T : Tables) (u : Sponge) (i : Fin 16) :
    (mdsLayer T u)[i] = BitVec.ofNat 64 (mdsSum T u i % Config.P) := by
  simp [mdsLayer]

theorem mdsLayer_toNat (T : Tables) (u : Sponge) (i : Fin 16) :
    ((mdsLayer T u)[i]).toNat = mdsSum T u i % Config.P := by
  rw [mdsLayer_get, BitVec.toNat_ofNat]
  exact Nat.mod_eq_of_lt ((Nat.mod_lt _ (by decide)).trans (by decide))

@[simp] theorem addConstants_get (T : Tables) (r : Fin 5) (v : Sponge) (i : Fin 16) :
    (addConstants T r v)[i] = fadd v[i] (mont (roundConstant T r i)) := by
  simp [addConstants]

/-- The five rounds in order (R140). -/
theorem tip5_eq (T : Tables) (s : Sponge) :
    tip5 T s = tip5Round T (tip5Round T (tip5Round T (tip5Round T (tip5Round T s 0) 1) 2) 3) 4 := rfl

@[simp] theorem initSponge_get (dom : Domain) (i : Fin 16) :
    (initSponge dom)[i] = if i.val < 10 then 0 else if dom.bit then Config.ONE else 0 := by
  simp [initSponge]

@[simp] theorem rateOf_get (s : Sponge) (i : Fin 10) : (rateOf s)[i] = s[i.val] := by
  simp [rateOf]

theorem addBlock_get_rate (s : Sponge) (b : Block) (i : Fin 10) :
    (addBlock s b)[i.val] = fadd s[i.val] b[i] := by
  simp [addBlock]

theorem addBlock_get_capacity (s : Sponge) (b : Block) (i : Fin 16) (h : 10 ≤ i.val) : (addBlock s b)[i] = s[i] := by
  simp [addBlock, Nat.not_lt.2 h]

@[simp] theorem padBlock_get (n : Nat) (x : Block) (i : Fin 10) :
    (padBlock n x)[i] = if i.val < n then x[i] else if i.val = n then Config.ONE else 0 := by
  simp [padBlock]

@[simp] theorem squeezeBlock_fst (T : Tables) (s : Sponge) : (squeezeBlock T s).1 = rateOf s := rfl
@[simp] theorem squeezeBlock_snd (T : Tables) (s : Sponge) : (squeezeBlock T s).2 = tip5 T s := rfl

end Sys2Proof.Machine
end

