-- ==== Sys2Proof/Laws/Window.lean ====
section
/-! SUPPORT. The window: where its registers stand, and the three things a host access can do. -/

namespace Sys2Proof.Machine

open Sys2Proof

/-- What an access does: it is refused with a code, or it is accepted at a register (R225). The code is never NONE. -/
theorem hostAccess_cases (a : Access) (s : State) :
    (∃ c, accessError s a = some c ∧ hostAccess a s = refuseAccess c a s) ∨
      (∃ r, accessError s a = none ∧ accessReg a = some r ∧ hostAccess a s = acceptAccess r a s) := by
  unfold hostAccess
  cases he : accessError s a with
  | some c => exact .inl ⟨c, rfl, rfl⟩
  | none =>
    cases hr : accessReg a with
    | some r => exact .inr ⟨r, rfl, rfl, rfl⟩
    | none =>
      have hf : formError a = some .hostAccess := by simp [formError, hr]
      unfold accessError at he
      rw [hf] at he
      split at he <;> cases he

/-- With BUSY = 0 an access is refused for its form or value alone (R225). -/
theorem accessError_idle {s : State} (h : s.busy = false) (a : Access) : accessError s a = formError a := by
  simp [accessError, h]

/-- An access allowed while BUSY = 1 is refused for its form or value alone (R265). -/
theorem accessError_allowed {a : Access} (h : allowedWhileBusy a = true) (s : State) :
    accessError s a = formError a := by
  simp [accessError, h]

/-- An access that names no register is refused with HOST_ACCESS (R62, R64). -/
theorem formError_unmapped {a : Access} (h : accessReg a = none) : formError a = some .hostAccess := by
  simp [formError, h]

/-- The codes an access can be refused for its form or value are two (R221). -/
theorem formError_code {a : Access} {c : ErrCode} (h : formError a = some c) :
    c = .hostAccess ∨ c = .hostNoncanonWrite := by
  unfold formError at h
  split at h
  · cases h; exact .inl rfl
  · cases h
  · unfold writeError at h
    split at h <;> first | (cases h; done) | (cases h; exact .inl rfl) | (split at h <;> cases h <;> simp)

@[simp] theorem refuseAccess_read (c : ErrCode) (off : BitVec 9) (width : Nat) (s : State) :
    refuseAccess c (.read off width) s = (s.recordError c).reply 0 := rfl
@[simp] theorem refuseAccess_write (c : ErrCode) (off : BitVec 9) (width : Nat) (v : Word) (s : State) :
    refuseAccess c (.write off width v) s = s.recordError c := rfl
@[simp] theorem acceptAccess_read (r : WinReg) (off : BitVec 9) (width : Nat) (s : State) :
    acceptAccess r (.read off width) s = s.reply (windowRead s r) := rfl
@[simp] theorem acceptAccess_write (r : WinReg) (off : BitVec 9) (width : Nat) (v : Word) (s : State) :
    acceptAccess r (.write off width v) s = windowWrite r v s := rfl

end Sys2Proof.Machine
end

