-- ==== Sys2Proof/Laws/Step.lean ====
section
/-! SUPPORT. The step unfolded by its event, and the engine step by what is latched. -/

namespace Sys2Proof.Machine

open Sys2Proof

theorem step_idle {s : State} (h : s.events = []) : step s = engineStep s := by
  rw [step, machineStep, h]

theorem step_event {s : State} {e : Event} {rest : List Event} (h : s.events = e :: rest) :
    step s = runEvent e { s with events := rest } := by
  rw [step, machineStep, h]

theorem engineStep_latched {s : State} {v : Word} (hb : s.busy = true) (hp : s.pending = some v) :
    engineStep s = engineRun v s := by
  rw [engineStep, hb, hp]

theorem engineStep_off {s : State} (h : s.busy = false ∨ s.pending = none) : engineStep s = .next s := by
  unfold engineStep
  split
  · rename_i hb hp
    rcases h with h | h <;> simp_all
  · rfl

theorem engineRun_error {s : State} {v : Word} {e : DecodeError} (h : decodeCmd v = .error e) :
    engineRun v s = .next (s.recordError (decodeErrorCode e)).complete := by
  rw [engineRun, h]

theorem engineRun_ok {s : State} {v : Word} {i : Instr} (h : decodeCmd v = .ok i) :
    engineRun v s = engineEnd s (exec i s) := by
  rw [engineRun, h]

@[simp] theorem engineEnd_next (s t : State) : engineEnd s (.next t) = .next t.complete := rfl
@[simp] theorem engineEnd_stuck (s : State) : engineEnd s (.fault .samplingStuck) = .next s := rfl

@[simp] theorem runEvent_host (a : Access) (s : State) : runEvent (.host a) s = .next (hostAccess a s) := rfl
@[simp] theorem runEvent_engine (s : State) : runEvent .engine s = engineStep s := rfl
@[simp] theorem runEvent_powerOn (s : State) : runEvent .powerOn s = .next s.resetBlock := rfl

end Sys2Proof.Machine
end

