-- ==== Sys2Proof/Machine/HostScripts.lean ====
section
/-! DEFINITION. What the source builds from the commands as host sequences (R179 to R181), as lists of events for
the immediate schedule of R264, and the assembler text of a command (R89). The machine does not use this file. -/

namespace Sys2Proof.Machine

open Sys2Proof

/-- `wr reg, v` (R89). -/
def wr (r : WinReg) (v : Word) : Event := .host (.write r.offset 8 v)

/-- `rd reg` (R89). -/
def rd (r : WinReg) : Event := .host (.read r.offset 8)

/-- `poll`, the loop `do rd STATUS while STATUS.BUSY = 1` (R89). On the immediate schedule no command is in flight when it
starts, so it ends with its first read (DEDUCED, safe, log 13). -/
def poll : List Event := [rd .status]

/-- A command issued, run at once, and polled (R264, R265, R89). -/
def issue (i : Instr) : List Event := wr .cmd ((encode i).setWidth 64) :: .engine :: poll

/-- The host writes a list of words to FR[0], FR[1], … (at most 16 have a register). -/
def loadFr (ws : List Word) : List Event :=
  (ws.zip (List.finRange 16)).map fun p => wr (.fr p.2) p.1

/-- One line of R179: `wr FR[0..], block; poll; command; poll`. -/
def absorbScript (block : List Word) (i : Instr) : List Event := loadFr block ++ poll ++ issue i

/-- The full blocks of `pad_and_absorb_all`, and then its padded block (R179), on `fuel` ≥ the number of blocks. -/
def padAndAbsorbAllFrom : Nat → List Word → List Event
  | 0, _ => []
  | fuel + 1, x =>
    if x.length < 10 then absorbScript x (.padabs x.length)
    else absorbScript (x.take 10) .absorb ++ padAndAbsorbAllFrom fuel (x.drop 10)

/-- The source's `pad_and_absorb_all(input)` (R179). -/
def padAndAbsorbAll (x : List Word) : List Event := padAndAbsorbAllFrom (x.length / 10 + 1) x

/-- The source's `hash_varlen(input)`; the digest is then in FR[0..4] (R180). -/
def hashVarlen (x : List Word) : List Event :=
  issue .vinit ++ padAndAbsorbAll x ++ issue .squeeze

/-- The source's `HashPair(left, right)`; the digest is then in FR[0..4] (R181). -/
def hashPair (left right : List Word) : List Event := loadFr (left ++ right) ++ issue .hashpair

/-- `fr0` to `fr15` (R89). -/
def asmReg (r : Reg) : String := "fr" ++ toString r.val

/-- The operands of a command, with commas between them (R89). -/
def asmLine (mnemonic : String) (operands : List String) : String :=
  if operands.isEmpty then mnemonic else mnemonic ++ " " ++ String.intercalate ", " operands

/-- The assembler text of a command (R89): decimal immediates, `.S` for start = 1. -/
def asm : Instr → String
  | .nop => asmLine "NOP" []
  | .fadd rd rs1 rs2 => asmLine "FADD" [asmReg rd, asmReg rs1, asmReg rs2]
  | .fsub rd rs1 rs2 => asmLine "FSUB" [asmReg rd, asmReg rs1, asmReg rs2]
  | .fneg rd rs1 => asmLine "FNEG" [asmReg rd, asmReg rs1]
  | .fmul rd rs1 rs2 => asmLine "FMUL" [asmReg rd, asmReg rs1, asmReg rs2]
  | .fsqr rd rs1 => asmLine "FSQR" [asmReg rd, asmReg rs1]
  | .fredc rd rs1 rs2 => asmLine "FREDC" [asmReg rd, asmReg rs1, asmReg rs2]
  | .ftom rd rs1 => asmLine "FTOM" [asmReg rd, asmReg rs1]
  | .fcan rd rs1 => asmLine "FCAN" [asmReg rd, asmReg rs1]
  | .finv rd rs1 => asmLine "FINV" [asmReg rd, asmReg rs1]
  | .fpow rd rs1 rs2 => asmLine "FPOW" [asmReg rd, asmReg rs1, asmReg rs2]
  | .feq rs1 rs2 => asmLine "FEQ" [asmReg rs1, asmReg rs2]
  | .flt rs1 rs2 => asmLine "FLT" [asmReg rs1, asmReg rs2]
  | .fgt rs1 rs2 => asmLine "FGT" [asmReg rs1, asmReg rs2]
  | .sinit dom => asmLine "SINIT" [if dom.bit then "fixed" else "var"]
  | .perm => asmLine "PERM" []
  | .absorb => asmLine "ABSORB" []
  | .squeeze => asmLine "SQUEEZE" []
  | .padabs n => asmLine "PADABS" [toString n]
  | .hashf n => asmLine "HASHF" [toString n]
  | .smpi start rs1 count => asmLine (if start then "SMPI.S" else "SMPI") [asmReg rs1, toString count]
  | .smps start count => asmLine (if start then "SMPS.S" else "SMPS") [toString count]

end Sys2Proof.Machine
end

