-- ==== Sys2Proof/Tests/Slice0.lean ====
section
/-! SUPPORT. Tests of the model on fixed values. Expected values come from spec/95_test_vectors.md or, where a comment says
so, from the rule by hand. The permutation is tested on the test tables PS-T of that file, which are not Tip5's. The
theorems named witness_… show that the hypotheses of the obligation they name can be met together. -/

namespace Sys2Proof.Tests

open Sys2Proof Sys2Proof.Machine Sys2Proof.Safety

/-! ## Well-formedness: each check refuses a term -/

theorem test_wf_padabs : (Instr.padabs 256).wellFormed = false ∧ (Instr.padabs 255).wellFormed = true := by decide
theorem test_wf_hashf : (Instr.hashf 256).wellFormed = false ∧ (Instr.hashf 255).wellFormed = true := by decide
theorem test_wf_smpi : (Instr.smpi true 0 32).wellFormed = false ∧ (Instr.smpi true 0 31).wellFormed = true := by decide
theorem test_wf_smps : (Instr.smps true 8).wellFormed = false ∧ (Instr.smps true 7).wellFormed = true := by decide

/-! ## Decoding: the words of 95_test_vectors.md, and words written out from R81 and R84 by hand -/

/-- What a word decodes to, if it decodes. -/
def read (w : BitVec 32) : Option Instr := decodeTableWord 32 w.toNat

/-- V-F8. -/
theorem test_decode_nop : read 0x00000000 = some (.nop) := by decide
/-- V-F2. -/
theorem test_decode_fadd : read 0x00021301 = some (.fadd 3 1 2) := by decide
/-- V-F2. -/
theorem test_decode_fsub : read 0x00021302 = some (.fsub 3 1 2) := by decide
/-- V-F2. -/
theorem test_decode_fneg : read 0x00001303 = some (.fneg 3 1) := by decide
/-- P1. -/
theorem test_decode_fmul : read 0x00045604 = some (.fmul 6 5 4) := by decide
/-- V-F3. -/
theorem test_decode_fsqr : read 0x00001305 = some (.fsqr 3 1) := by decide
/-- V-F7. -/
theorem test_decode_fredc : read 0x00021306 = some (.fredc 3 1 2) := by decide
/-- V-F1. -/
theorem test_decode_ftom : read 0x00001207 = some (.ftom 2 1) := by decide
/-- P1. -/
theorem test_decode_fcan : read 0x00009B08 = some (.fcan 11 9) := by decide
/-- W11. -/
theorem test_decode_finv : read 0x00000209 = some (.finv 2 0) := by decide
/-- P1. -/
theorem test_decode_fpow : read 0x000A190A = some (.fpow 9 1 10) := by decide
/-- V-F6. -/
theorem test_decode_feq : read 0x0002100B = some (.feq 1 2) := by decide
/-- V-F6. -/
theorem test_decode_flt : read 0x0002100C = some (.flt 1 2) := by decide
/-- V-F6. -/
theorem test_decode_fgt : read 0x0002100D = some (.fgt 1 2) := by decide
/-- V-S7. -/
theorem test_decode_sinit : read 0x00100020 = some (.sinit .fixedLength) := by decide
/-- V-P5. -/
theorem test_decode_perm : read 0x00000021 = some (.perm) := by decide
/-- P2. -/
theorem test_decode_absorb : read 0x00000022 = some (.absorb) := by decide
/-- P2. -/
theorem test_decode_squeeze : read 0x00000023 = some (.squeeze) := by decide
/-- V-S7. -/
theorem test_decode_padabs : read 0x00A00024 = some (.padabs 10) := by decide
/-- V-S6. -/
theorem test_decode_hashf : read 0x00300025 = some (.hashf 3) := by decide
/-- V-I4. -/
theorem test_decode_smpi : read 0x0900F026 = some (.smpi true 15 16) := by decide
/-- V-I5. -/
theorem test_decode_smps : read 0x08600027 = some (.smps true 6) := by decide
/-- V-I1: a continuation has imm[7] = 0. -/
theorem test_decode_smpi_continue : read 0x00A0F026 = some (.smpi false 15 10) := by decide
/-- V-I5. -/
theorem test_decode_smps_continue : read 0x00100027 = some (.smps false 1) := by decide
/-- V-F8: reserved opcodes and reserved fields. -/
theorem test_decode_refused :
    decode 0x0000000E = .error .illegalOpcode ∧ decode 0x000000FF = .error .illegalOpcode ∧
      decode 0x00100001 = .error .reservedField ∧ decode 0x10000021 = .error .reservedField ∧
      decode 0x00200020 = .error .reservedField ∧ decodeCmd 0x0000000100000027 = .error .reservedField := by
  refine ⟨?_, ?_, ?_, ?_, ?_, ?_⟩ <;> rfl
/-- The same words, written by the encoder. -/
theorem test_encode : (encode (.fpow 9 1 10) = 0x000A190A) ∧ encode (.smpi true 15 16) = 0x0900F026 ∧
    encode (.smps false 1) = 0x00100027 ∧ encode (.padabs 10) = 0x00A00024 := by decide

/-- R89: the text of P1's FPOW and of V-I4's SMPI. -/
theorem test_asm : asm (.fpow 9 1 10) = "FPOW fr9, fr1, fr10" ∧ asm (.smpi true 15 16) = "SMPI.S fr15, 16" := by
  decide +kernel

/-! ## Small states and what a command leaves -/

/-- The reset state with some registers written. -/
def regs (l : List (Reg × Word)) : State := l.foldl (fun s p => s.setFr p.1 p.2) State.reset

/-- The register `r` after a command. -/
def frOf (r : Reg) : Host.Outcome State Fault Refusal → Option Word
  | .next t => some t.fr[r]
  | .fault _ => none
  | .refused _ => none

/-- CMP after a command. -/
def cmpOf : Host.Outcome State Fault Refusal → Option Bool
  | .next t => some t.cmp
  | .fault _ => none
  | .refused _ => none

/-- STATUS after a command or a step. -/
def statusOf : Host.Outcome State Fault Refusal → Option Word
  | .next t => some (statusWord t)
  | .fault _ => none
  | .refused _ => none

/-- The sponge word `i` after a command. -/
def spongeOf (i : Fin 16) : Host.Outcome State Fault Refusal → Option Word
  | .next t => some t.sponge[i]
  | .fault _ => none
  | .refused _ => none

/-- The last word a host read returned. -/
def replyOf : Host.Outcome State Fault Refusal → Option Word
  | .next t => t.replies.head?
  | .fault _ => none
  | .refused _ => none

/-- LASTCMD after a step. -/
def lastCmdOf : Host.Outcome State Fault Refusal → Option (BitVec 32)
  | .next t => some t.lastCmd
  | .fault _ => none
  | .refused _ => none

/-! ## Field arithmetic (V-F1 to V-F7) -/

theorem test_fadd_wraps : frOf 3 (exec (.fadd 3 1 2) (regs [(1, 0xFFFFFFFF00000000), (2, 0xFFFFFFFF00000000)])) =
    some 0xFFFFFFFEFFFFFFFF := by decide
theorem test_fadd_same_register : frOf 1 (exec (.fadd 1 1 1) (regs [(1, 0x00000006FFFFFFF9)])) =
    some 0x0000000DFFFFFFF2 := by decide
theorem test_fsub_wraps : frOf 3 (exec (.fsub 3 1 2) (regs [(1, 0), (2, 0x00000000FFFFFFFF)])) =
    some 0xFFFFFFFE00000002 := by decide
theorem test_fneg_zero : frOf 3 (exec (.fneg 3 1) (regs [(1, 0)])) = some 0 := by decide
theorem test_fneg_one : frOf 3 (exec (.fneg 3 1) (regs [(1, 1)])) = some 0xFFFFFFFF00000000 := by decide
theorem test_fmul_minus_one : frOf 3 (exec (.fmul 3 1 2) (regs [(1, 0xFFFFFFFE00000002), (2, 0xFFFFFFFE00000002)])) =
    some 0x00000000FFFFFFFF := by decide
theorem test_fmul_raw_one : frOf 3 (exec (.fmul 3 1 2) (regs [(1, 1), (2, 1)])) = some 0xFFFFFFFE00000001 := by decide
theorem test_fsqr : frOf 3 (exec (.fsqr 3 1) (regs [(1, 0xFFFFFFFF00000000)])) = some 0xFFFFFFFE00000001 := by decide
theorem test_fredc_high_not_reduced : frOf 3 (exec (.fredc 3 1 2) (regs [(1, 0xFFFFFFFF00000001), (2, 0)])) =
    some 0xFFFFFFFF00000001 := by decide
theorem test_fredc_all_ones : frOf 3 (exec (.fredc 3 1 2) (regs [(1, 0xFFFFFFFFFFFFFFFF), (2, 0xFFFFFFFFFFFFFFFF)])) =
    some 0x00000001FFFFFFFF := by decide
theorem test_ftom_above_p : frOf 2 (exec (.ftom 2 1) (regs [(1, 0xFFFFFFFFFFFFFFFF)])) =
    some 0xFFFFFFFD00000002 := by decide
theorem test_fcan : frOf 2 (exec (.fcan 2 1) (regs [(1, 0x0001396AFFFEC695)])) = some 0x000000000001396B := by decide
theorem test_fcan_noncanonical : statusOf (exec (.fcan 2 1) (regs [(1, 0xFFFFFFFF00000001)])) = some 0x00000402 := by
  decide
theorem test_finv_two : frOf 2 (exec (.finv 2 1) (regs [(1, 0x00000001FFFFFFFE)])) = some 0x8000000000000000 := by
  decide +kernel
/-- W11: FR2 keeps its value. -/
theorem test_finv_zero : frOf 2 (exec (.finv 2 0) (regs [(2, 0x1234)])) = some 0x1234 ∧
    statusOf (exec (.finv 2 0) (regs [(2, 0x1234)])) = some 0x00000502 := by decide
theorem test_fpow_all_ones : frOf 3 (exec (.fpow 3 1 2) (regs [(1, 0x00000001FFFFFFFE), (2, 0xFFFFFFFFFFFFFFFF)])) =
    some 0xFFFFFFFE80000001 := by decide +kernel
theorem test_fpow_zero_zero : frOf 3 (exec (.fpow 3 1 2) State.reset) = some 0x00000000FFFFFFFF := by decide +kernel
theorem test_feq : cmpOf (exec (.feq 1 2) (regs [(1, 0x000006E3FFFFF91C), (2, 0x000006E3FFFFF91C)])) = some true := by
  decide
theorem test_flt_values_not_words :
    cmpOf (exec (.flt 1 2) (regs [(1, 0xFFFFFFFF00000000), (2, 0xFFFFFFFE00000002)])) = some true := by decide
theorem test_fgt_values_not_words :
    cmpOf (exec (.fgt 1 2) (regs [(1, 0xFFFFFFFF00000000), (2, 0xFFFFFFFE00000002)])) = some false := by decide

/-! ## The permutation and the sponge under PS-T (V-P1 to V-P5, V-S1, V-S3) -/

/-- The test tables PS-T. The S-box is the formula of R144's candidate, taken mod 257. -/
def psT : Tables where
  sbox x := BitVec.ofNat 8 (((x.toNat + 1) ^ 3 + 256) % 257)
  mdsCol i := (#v[61402, 1108, 28750, 33823, 7454, 43244, 53865, 12034, 56951, 27521, 41351, 40901, 12021, 59689,
    26798, 17845] : Vector Nat 16)[i]
  rc k := k.val + 1

theorem test_splitLookup : splitLookup psT 0x0123456789ABCDEF = 0x078AA1E7F668D9E2 := by decide +kernel
theorem test_powerMap : powerMap 0x0123456789ABCDEF = 0x197248EA2E971FEE := by decide +kernel
/-- V-P2, ONE at position 5: the canonical output at positions 0 and 5. -/
theorem test_mds_circulant :
    canon (mdsLayer psT ((Vector.replicate 16 0).set 5 Config.ONE))[0] = 40901 ∧
      canon (mdsLayer psT ((Vector.replicate 16 0).set 5 Config.ONE))[5] = 61402 := by decide +kernel
/-- V-P3. -/
theorem test_round_zero : (tip5Round psT (Vector.replicate 16 0) 0)[15] = 0x0000000FFFFFFFF0 := by decide +kernel
/-- V-P5. -/
theorem test_tip5_zero : (tip5 psT (Vector.replicate 16 0))[0] = 0x36AD1487E68BC72F ∧
    (tip5 psT (Vector.replicate 16 0))[15] = 0x10F42134B8B2B6BF := by decide +kernel
/-- V-S1. -/
theorem test_hash_ten : (hashSponge psT 10 (Vector.ofFn fun i => mont (i.val + 1))).1.toList.take 2 =
    [0xD38A882359436CE5, 0x21058C36E5C2897B] := by decide +kernel
/-- V-S6, HASHF 0. -/
theorem test_hash_empty : (hashSponge psT 0 (Vector.replicate 10 0)).1.toList.take 1 = [0x0965361302977818] := by
  decide +kernel
/-- V-S7. -/
theorem test_sinit_fixed : spongeOf 9 (exec (.sinit .fixedLength) State.reset) = some 0 ∧
    spongeOf 10 (exec (.sinit .fixedLength) State.reset) = some 0x00000000FFFFFFFF ∧
    statusOf (exec (.sinit .fixedLength) State.reset) = some 0x00000008 := by decide
theorem test_absorb_noncanonical : statusOf (exec .absorb (regs [(7, 0xFFFFFFFF00000001)])) = some 0x00000402 := by
  decide
theorem test_padabs_reads_its_prefix_only :
    statusOf (exec (.padabs 3) (regs [(3, 0xFFFFFFFF00000001)])) = some 0x00000000 ∧
      statusOf (exec (.padabs 4) (regs [(3, 0xFFFFFFFF00000001)])) = some 0x00000402 := by decide
theorem test_padabs_length : statusOf (exec (.padabs 10) State.reset) = some 0x00000302 := by decide
/-- V-E1: BAD_LENGTH comes first. -/
theorem test_hashf_length_first : statusOf (exec (.hashf 11) (regs [(0, 0xFFFFFFFF00000001)])) = some 0x00000302 := by
  decide
/-- V-S7: the first SQUEEZE after SINIT var gives the zero rate; FR10 keeps its value. -/
theorem test_squeeze_before_permutation :
    frOf 3 (exec .squeeze (regs [(3, 7), (10, 9)])) = some 0 ∧ frOf 10 (exec .squeeze (regs [(3, 7), (10, 9)])) = some 9 := by
  decide
/-- R151: PERM leaves FR and STATUS alone. -/
theorem test_perm_status : statusOf (exec .perm (regs [(3, 7)])) = some 0 ∧ frOf 3 (exec .perm (regs [(3, 7)])) = some 7 := by
  decide

/-! ## Sampling (V-I2, V-I3, V-E1) -/

/-- V-I2's sponge. -/
def spongeI2 : Sponge := (Vector.ofFn fun i => if i.val < 9 then mont i.val else 0).set 9 0xFFFFFFFE00000002

/-- V-I2: S[9] comes first and is rejected. -/
theorem test_smpi_rejects : frOf 0 (exec (.smpi true 2 3) { regs [(2, 16)] with sponge := spongeI2 }) = some 8 ∧
    frOf 2 (exec (.smpi true 2 3) { regs [(2, 16)] with sponge := spongeI2 }) = some 6 ∧
    statusOf (exec (.smpi true 2 3) { regs [(2, 16)] with sponge := spongeI2 }) = some 0x00160000 := by decide +kernel
/-- V-E1: BAD_LENGTH before BAD_BOUND, BAD_BOUND before SAMPLE_SEQ, SAMPLE_SEQ. -/
theorem test_smpi_errors : statusOf (exec (.smpi true 1 17) State.reset) = some 0x00000302 ∧
    statusOf (exec (.smpi false 1 1) (regs [(1, 100)])) = some 0x00000602 ∧
    statusOf (exec (.smpi false 1 1) (regs [(1, 8)])) = some 0x00000702 := by decide
/-- V-I5: from reset SMPS.S 4 squeezes twice; the first ten words are the zero rate. -/
theorem test_smps_two_blocks : frOf 9 (exec (.smps true 4) (regs [(9, 5)])) = some 0 ∧
    statusOf (exec (.smps true 4) State.reset) = some 0x00280000 := by decide
/-- V-I5, under PS-T: words 10 and 11 are the first two of V-P5's S. -/
theorem test_smps_stream : ((drawElements psT .smps 12 ⟨Vector.replicate 16 0, []⟩).1.drop 10) =
    [0x36AD1487E68BC72F, 0x30A5E294DAA70463] := by decide +kernel
theorem test_smps_errors : statusOf (exec (.smps true 6) State.reset) = some 0x00000302 ∧
    statusOf (exec (.smps false 1) { State.reset with qkind := .smpi }) = some 0x00100702 := by decide

/-! ## The step, decode errors, the window (V-F8, V-E2 to V-E4, V-R1) -/

/-- The reset state with one event waiting. -/
def withEvent (e : Event) : State := { State.reset with events := [e] }

theorem test_step_nop : statusOf (step (State.reset.withFetchWord 32 0x00000000)) = some 0 := by decide
theorem test_step_illegal : statusOf (step (State.reset.withFetchWord 32 0x0000000E)) = some 0x00000102 := by decide
theorem test_step_reserved : statusOf (step (State.reset.withFetchWord 32 0x00100001)) = some 0x00000202 ∧
    lastCmdOf (step (State.reset.withFetchWord 32 0x00100001)) = some 0x00100001 := by decide
theorem test_step_high_bits : statusOf (step (State.reset.latch 0x0000000100000000)) = some 0x00000202 := by decide
theorem test_read_misaligned : statusOf (step (withEvent (.host (.read 0x004 8)))) = some 0x00001002 ∧
    replyOf (step (withEvent (.host (.read 0x004 8)))) = some 0 := by decide
theorem test_read_unmapped : statusOf (step (withEvent (.host (.read 0x1F8 8)))) = some 0x00001002 := by decide
theorem test_read_narrow : statusOf (step (withEvent (.host (.read 0x108 4)))) = some 0x00001002 := by decide
theorem test_read_id : replyOf (step (withEvent (.host (.read 0x118 8)))) = some 0x0000000135504954 ∧
    replyOf (step (withEvent (.host (.read 0x120 8)))) = some 0x0000030505060A10 := by decide
theorem test_read_ctrl : statusOf (step (withEvent (.host (.read 0x110 8)))) = some 0 ∧
    replyOf (step (withEvent (.host (.read 0x110 8)))) = some 0 := by decide
theorem test_write_status : statusOf (step (withEvent (.host (.write 0x108 8 0)))) = some 0x00001002 := by decide
theorem test_write_ctrl_reserved : statusOf (step (withEvent (.host (.write 0x110 8 4)))) = some 0x00001002 := by decide
theorem test_write_sponge_noncanonical :
    statusOf (step (withEvent (.host (.write 0x098 8 0xFFFFFFFF00000001)))) = some 0x00001102 ∧
      spongeOf 3 (step (withEvent (.host (.write 0x098 8 0xFFFFFFFF00000001)))) = some 0 := by decide
theorem test_write_sponge : spongeOf 3 (step (withEvent (.host (.write 0x098 8 0xFFFFFFFF00000000)))) =
    some 0xFFFFFFFF00000000 := by decide
theorem test_write_fr : frOf 5 (step (withEvent (.host (.write 0x028 8 0xFFFFFFFFFFFFFFFF)))) =
    some 0xFFFFFFFFFFFFFFFF := by decide

/-- PERM latched, with one access before the engine's turn (V-E4). -/
def permInFlight (a : Access) : State := { State.reset.latch 0x00000021 with events := [.host a, .engine] }

theorem test_busy_status : replyOf (step (permInFlight (.read 0x108 8))) = some 0x00000001 := by decide
theorem test_busy_read : replyOf (step (permInFlight (.read 0x000 8))) = some 0 ∧
    statusOf (step (permInFlight (.read 0x000 8))) = some 0x00001203 := by decide
theorem test_busy_cmd : lastCmdOf (step (permInFlight (.write 0x100 8 0))) = some 0x00000021 := by decide
theorem test_busy_soft_reset : statusOf (step (permInFlight (.write 0x110 8 2))) = some 0x00000000 := by decide

/-- V-E2: under ERR = 1 a CMD write is ignored but for LASTCMD. -/
theorem test_cmd_under_err :
    statusOf (step ((withEvent (.host (.write 0x100 8 0x00011201))).recordError .illegalOpcode)) = some 0x00000102 ∧
      lastCmdOf (step ((withEvent (.host (.write 0x100 8 0x00011201))).recordError .illegalOpcode)) =
        some 0x00011201 := by decide
/-- V-E2: the first code is kept. -/
theorem test_first_code_kept :
    statusOf (step ((withEvent (.host (.read 0x004 8))).recordError .illegalOpcode)) = some 0x00000102 := by decide

/-! ## Host sequences (R179) -/

/-- R179 with L = 0: no FR write, a poll, PADABS 0 (0x00000024 by R90), a poll. -/
theorem test_padAndAbsorbAll_empty :
    padAndAbsorbAll [] = [rd .status, wr .cmd 0x00000024, .engine, rd .status] := by decide
/-- R179 with L = 10: ten FR writes, then ABSORB and the padded block, each between its polls. -/
theorem test_padAndAbsorbAll_ten : (padAndAbsorbAll (List.replicate 10 7)).drop 9 =
    [wr (.fr 9) 7, rd .status, wr .cmd 0x00000022, .engine, rd .status,
      rd .status, wr .cmd 0x00000024, .engine, rd .status] := by decide

/-! ## Witnesses: the hypotheses of each obligation are met -/

/-- A state with a command latched and the engine's turn next. -/
def latched (v : Word) : State := { State.reset.latch v with events := [.engine] }

/-- Two canonical operands, the largest canonical word among them. -/
def operands : State := regs [(1, 0xFFFFFFFF00000000), (2, 5)]

/-- The same with the first word that is not canonical. -/
def badOperands : State := operands.setFr 3 0xFFFFFFFF00000001

/-- A state in the middle of an index-sampling call: 16 as bound, and a rejected element in the queue. -/
def midCall : State :=
  { regs [(2, 16)] with
    qkind := .smpi
    q := [0xFFFFFFFE00000002, 0x00000008FFFFFFF7, 0x00000007FFFFFFF8, 0x00000006FFFFFFF9] }

/-- Tables whose permutation ends, on every state, in the state of nothing but rejected elements. -/
def deadT : Tables where
  sbox x := x
  mdsCol _ := 0
  rc _ := 0xFFFFFFFF00000000

/-- That state. -/
def deadSponge : Sponge := Vector.replicate 16 0xFFFFFFFE00000002

theorem deadSponge_canonical : SpongeCanonical deadSponge := by
  intro i
  simp only [deadSponge, Fin.getElem_fin, Vector.getElem_replicate]
  decide

theorem witness_DecodeReadsBackEncode :
    (Instr.padabs 255).WellFormed ∧ (Instr.smpi true 15 31).WellFormed ∧ (Instr.smps false 7).WellFormed := by decide
theorem witness_EncodeWritesBackDecode : decode 0x0FF00025 = .ok (.hashf 255) := by rfl
theorem witness_OpcodeRowsAreDisjoint :
    (0x00100020 : BitVec 32) &&& Opcode.sinit.mask = Opcode.sinit.matchWord := by decide
/-- Every stage has a latched word at the edge of its range. -/
theorem witness_LatchedWordIsDecodedInStages :
    (∀ v, (latched v).busy = true ∧ (latched v).pending = some v ∧ EngineNext (latched v)) ∧
      (0x0000000100000000 : Word).extractLsb' 32 32 ≠ 0 ∧
      (∀ w ∈ ([0x0E, 0x1F, 0x28, 0xFF] : List (BitVec 32)), decode w = .error .illegalOpcode) ∧
      decode 0x00100001 = .error .reservedField ∧ decode 0x00F2D30D = .error .reservedField ∧
      decode 0x0000000D = .ok (.fgt 0 0) ∧ decode 0x08500027 = .ok (.smps true 5) := by
  refine ⟨fun v => ⟨rfl, rfl, .inr rfl⟩, by decide, ?_, rfl, rfl, rfl, rfl⟩
  intro w hw
  simp only [List.mem_cons, List.not_mem_nil, or_false] at hw
  rcases hw with rfl | rfl | rfl | rfl <;> rfl
/-- Both ways in which the engine moves next, and the idle block. -/
theorem witness_StepRunsTheLatchedCommand :
    (latched 0x21).busy = true ∧ (latched 0x21).pending = some 0x21 ∧ decodeCmd 0x21 = .ok .perm ∧
      EngineNext (latched 0x21) ∧ EngineNext (State.reset.latch 0x21) ∧ State.reset.busy = false ∧
      EngineNext State.reset :=
  ⟨rfl, rfl, rfl, .inr rfl, .inl rfl, rfl, .inl rfl⟩
theorem witness_EveryCommandCompletesOrIsStuck :
    (latched 0).busy = true ∧ (latched 0).pending = some 0 ∧ EngineNext (latched 0) ∧
      step (latched 0) = .next State.reset :=
  ⟨rfl, rfl, .inr rfl, rfl⟩
/-- The three clauses: busy, idle with ERR = 1, idle without. -/
theorem witness_CmdWriteLatchesTheCommand :
    (permInFlight (.write 0x100 8 0)).busy = true ∧
      ((withEvent (.host (.write 0x100 8 0))).recordError .invZero).busy = false ∧
      ((withEvent (.host (.write 0x100 8 0))).recordError .invZero).err = true ∧
      (withEvent (.host (.write 0x100 8 0))).busy = false ∧ (withEvent (.host (.write 0x100 8 0))).err = false := by
  decide
theorem witness_ResetsAndErrorClear :
    (permInFlight (.write 0x110 8 2)).events = .host (.write 0x110 8 2) :: [.engine] ∧
      (withEvent .powerOn).events = [.powerOn] ∧
      (withEvent (.host (.write 0x110 8 1))).events = [.host (.write 0x110 8 1)] ∧
      (withEvent (.host (.write 0x110 8 0))).events = [.host (.write 0x110 8 0)] :=
  ⟨rfl, rfl, rfl, rfl⟩
/-- A state other than reset, with a command in flight, an error and a queue. -/
def busyState : State :=
  { State.reset with
    sponge := deadSponge, q := [0xFFFFFFFE00000002, 0x00000008FFFFFFF7], qkind := .smpi, busy := true,
    pending := some 0x21, lastCmd := 0x21, err := true, errCode := .busyAccess, events := [.engine] }
theorem witness_EveryStepKeepsTheInvariant : StateInv busyState := by
  refine ⟨deadSponge_canonical, ?_, by simp [busyState], ?_, rfl, ?_, ?_⟩
  · simp only [busyState, List.mem_cons, List.not_mem_nil, or_false]
    rintro w (rfl | rfl) <;> decide
  · intro h
    cases h
  · intro v h
    cases h
    rfl
  · exact iff_of_true rfl (by simp [busyState])
theorem witness_ErrorStateIsSticky :
    (State.reset.recordError .invZero).err = true ∧
      step (State.reset.recordError .invZero) = .next (State.reset.recordError .invZero) ∧
      ((withEvent (.host (.write 0x110 8 3))).recordError .invZero).err = true :=
  ⟨rfl, rfl, rfl⟩
/-- Every code a command can raise, and no error. -/
theorem witness_CommandErrorsFollowTheCheckOrder :
    commandError (.padabs 10) State.reset = some .badLength ∧ commandError (.smpi true 1 16) State.reset = some .badBound ∧
      commandError (.smps false 5) State.reset = some .sampleSeq ∧
      commandError .absorb (regs [(9, 0xFFFFFFFF00000001)]) = some .operandNoncanon ∧
      commandError (.finv 2 0) State.reset = some .invZero ∧ commandError (.hashf 10) State.reset = none := by
  decide +kernel
theorem witness_FrChangesOnlyAsListed :
    exec (.fadd 3 1 2) operands = .next (operands.setFr 3 4) ∧ writesFr (.fadd 3 1 2) 4 = false ∧
      writesFr (.hashf 0) 5 = false ∧ writesFr (.smpi true 2 16) 15 = true ∧ writesFr (.smps true 5) 15 = false := by
  refine ⟨rfl, ?_⟩
  decide
theorem witness_StatusAndSpongeChangeOnlyAsListed :
    exec .nop operands = .next operands ∧ writesCmp .nop = false ∧ writesDom .nop = false ∧ writesSponge .nop = false :=
  ⟨rfl, rfl, rfl, rfl⟩
theorem witness_FieldUnitFrame :
    writesSponge (.feq 1 2) = false ∧ commandError (.feq 1 2) operands = none ∧
      exec (.feq 1 2) operands = .next (operands.setCmp false) :=
  ⟨rfl, by decide +kernel, rfl⟩
theorem witness_SpongeCommandsFlush :
    flushesQueue (.padabs 9) = true ∧ commandError (.padabs 9) operands = none ∧
      commandError (.padabs 10) operands = some .badLength := by decide +kernel
/-- The largest high half that is canonical. -/
theorem witness_MontRedRange : (joinWide 0xFFFFFFFF00000000 0xFFFFFFFFFFFFFFFF).toNat / 2 ^ 64 < Config.P := by decide
theorem witness_MontgomeryProduct : Canonical 0xFFFFFFFF00000000 ∧ Canonical 5 := by decide
theorem witness_MontgomeryFormIsABijection : Config.P - 1 < Config.P ∧ Canonical 0xFFFFFFFF00000000 := by decide
theorem witness_AdderResults : Canonical operands.fr[1] ∧ Canonical operands.fr[2] ∧
    ¬ Canonical badOperands.fr[3] := by decide
theorem witness_MultiplierResults : Canonical operands.fr[1] ∧ Canonical operands.fr[2] ∧
    ¬ Canonical badOperands.fr[3] := by decide
theorem witness_RawReductionResult : Canonical operands.fr[1] := by decide
theorem witness_ConversionResults : Canonical operands.fr[1] ∧
    ¬ Canonical badOperands.fr[3] := by decide
theorem witness_PowerResult : Canonical operands.fr[1] ∧
    ¬ Canonical badOperands.fr[3] := by decide
theorem witness_InverseResult : Canonical operands.fr[1] ∧ operands.fr[1] ≠ 0 ∧ operands.fr[0] = 0 ∧
    ¬ Canonical badOperands.fr[3] := by decide
theorem witness_CompareResults : Canonical operands.fr[1] ∧ Canonical operands.fr[2] ∧
    ¬ Canonical badOperands.fr[3] := by decide
theorem validT : Tables.Valid { deadT with rc := fun _ => 1 } :=
  ⟨Function.bijective_id, rfl, rfl, fun _ => by show 1 < Config.P; decide⟩
theorem witness_SplitLookupIsABijection :
    (∃ T : Tables, T.Valid) ∧ Canonical 0xFFFFFFFF00000000 := ⟨⟨_, validT⟩, by decide⟩
theorem witness_PowerMapIsTheSeventhPower : Canonical 0xFFFFFFFF00000000 ∧ Canonical 5 := by decide
theorem witness_Tip5IsInjectiveIffTheMdsLayerIs : (∃ T : Tables, T.Valid) ∧ SpongeCanonical deadSponge :=
  ⟨⟨_, validT⟩, deadSponge_canonical⟩
theorem witness_AbsorbResult : (∀ r : Reg, r.val < 10 → Canonical operands.fr[r]) ∧ ¬ Canonical badOperands.fr[3] := by
  decide
theorem witness_PadabsResult : (9 ≤ 9 ∧ ∀ r : Reg, r.val < 9 → Canonical operands.fr[r]) ∧ 9 < 10 ∧ 3 < 4 ∧
    ¬ Canonical badOperands.fr[3] := by decide
theorem witness_HashfResult : (10 ≤ 10 ∧ ∀ r : Reg, r.val < 10 → Canonical operands.fr[r]) ∧ 10 < 11 ∧ 3 < 4 ∧
    ¬ Canonical badOperands.fr[3] := by decide
/-- Two blocks that differ beyond the padded prefix. -/
theorem witness_PaddingIsInjective :
    padBlock 2 (Vector.replicate 10 7) = padBlock 2 ((Vector.replicate 10 7).set 5 1) := by decide
theorem witness_SmpsResult : 5 ≤ 5 ∧ (State.reset.setSampler .smps ⟨deadSponge, []⟩).qkind = .smps ∧ 5 < 6 ∧
    State.reset.qkind ≠ .smps := by decide
theorem witness_SmpsCallMayBeSplit :
    5 ≤ 5 ∧ 0 ≤ 5 ∧ (State.reset.setSampler .smps ⟨deadSponge, []⟩).qkind = .smps := by decide
/-- One element is struck out, two are drawn. -/
theorem drawn_midCall : drawAccepted Config.tables 2 ⟨midCall.sponge, midCall.q⟩ =
    some ([0x00000008FFFFFFF7, 0x00000007FFFFFFF8], ⟨midCall.sponge, [0x00000006FFFFFFF9]⟩) := by decide +kernel
theorem witness_IndexDrawSkipsOnlyRejected :
    ∃ (m m' : Sampler) (es : List Word), drawAccepted Config.tables 2 m = some (es, m') := ⟨_, _, _, drawn_midCall⟩
theorem witness_IndexDrawReversesEachBlock : 9 < 10 := by decide
theorem witness_SmpiResult : 2 ≤ 16 ∧ IsPowerOfTwo midCall.fr[2] ∧ midCall.qkind = .smpi ∧
    ∃ es m, drawAccepted Config.tables 2 ⟨midCall.sponge, if false then [] else midCall.q⟩ = some (es, m) :=
  ⟨by decide, ⟨4, by decide⟩, rfl, _, _, drawn_midCall⟩
/-- The error clauses: the bound 0, and a continuation of no call. -/
theorem witness_SmpiResult_errors : 16 < 17 ∧ ¬ IsPowerOfTwo State.reset.fr[1] ∧ IsPowerOfTwo (regs [(1, 1)]).fr[1] ∧
    (regs [(1, 1)]).qkind ≠ .smpi := by
  refine ⟨by decide, ?_, ⟨0, by decide⟩, by decide⟩
  rintro ⟨k, h⟩
  have := Nat.two_pow_pos k.val
  rw [← h] at this
  exact absurd this (by decide)
theorem witness_SmpiCallMayBeSplit : 1 ≤ 16 ∧ IsPowerOfTwo midCall.fr[2] ∧ midCall.qkind = .smpi ∧
    ∃ es m, drawAccepted Config.tables (1 + 1) ⟨midCall.sponge, if false then [] else midCall.q⟩ = some (es, m) :=
  ⟨by decide, ⟨4, by decide⟩, rfl, _, _, drawn_midCall⟩

theorem deadT_tip5 : tip5 deadT deadSponge = deadSponge := by decide +kernel

/-- Under `deadT` every element is rejected, whatever the fuel. -/
theorem deadT_never_accepts (fuel : Nat) (q : List Word) (hq : ∀ w ∈ q, w = 0xFFFFFFFE00000002) :
    nextAccepted deadT fuel ⟨deadSponge, q⟩ = none := by
  have hr : rejected 0xFFFFFFFE00000002 = true := by decide +kernel
  induction fuel generalizing q with
  | zero => rfl
  | succ fuel ih =>
    cases q with
    | cons e q =>
      rw [nextAccepted_succ, nextElement_cons, hq e (by simp), if_pos hr]
      exact ih q fun w hw => hq w (by simp [hw])
    | nil =>
      have hb : queueOrder .smpi (rateOf deadSponge) = 0xFFFFFFFE00000002 :: List.replicate 9 0xFFFFFFFE00000002 := by
        decide
      rw [nextAccepted_succ, nextElement_nil, hb, deadT_tip5, List.headD_cons, if_pos hr]
      exact ih _ fun w hw => List.eq_of_mem_replicate hw

theorem witness_SpentFuelMeansNoEnd : ∃ (T : Tables) (m : Sampler), nextAccepted T (sampleFuel m) m = none :=
  ⟨deadT, ⟨deadSponge, []⟩, deadT_never_accepts _ [] (by simp)⟩

theorem witness_WindowMap : windowReg 0x0F8 = some (.sponge 15) ∧ windowReg 0x120 = some .cfg := by decide
theorem witness_StatusLayout :
    ({ State.reset with q := List.replicate 10 0 } : State).q.length ≤ 10 := by decide
theorem witness_IdleReadsReturnTheRegisters :
    (withEvent (.host (.read (WinReg.sponge 15).offset 8))).busy = false ∧
      (withEvent (.host (.read (WinReg.sponge 15).offset 8))).events =
        [.host (.read (WinReg.sponge 15).offset 8)] := ⟨rfl, rfl⟩
/-- The last canonical word and the first that is not. -/
theorem witness_IdleWritesOfFrAndSponge : (withEvent (.host (.write 0x078 8 5))).busy = false ∧
    (WinReg.fr 15).offset = 0x078 ∧ (WinReg.sponge 0).offset = 0x080 ∧ Canonical 0xFFFFFFFF00000000 ∧
    ¬ Canonical 0xFFFFFFFF00000001 := by decide
/-- The edges: width 4 at STATUS, offset 1, the first unmapped offset, a CTRL write of 4. -/
theorem witness_MalformedAccessesAreRefused : (withEvent (.host (.read 0x128 8))).busy = false ∧
    (0x128 : Nat) ≤ (0x128 : BitVec 9).toNat ∧ (0x001 : BitVec 9).toNat % 8 ≠ 0 ∧ 4 ≤ (4 : Word).toNat := by decide
/-- Accesses of every kind in front of a command in flight; the last is refused for two reasons. -/
theorem witness_BusyDiscipline : (∀ a, (permInFlight a).busy = true ∧ (permInFlight a).events = .host a :: [.engine]) ∧
    formError (.read 0x000 8) = none ∧ formError (.read 0x000 4) = some .hostAccess := by
  refine ⟨fun a => ⟨rfl, rfl⟩, ?_⟩
  decide

end Sys2Proof.Tests
end

section
/-! SUPPORT. The value of a word and the Montgomery word of a value (R10): multiplying by 2^64 and by 2^-64 mod P undo
each other. -/

namespace Sys2Proof.Safety

open Sys2Proof Sys2Proof.Machine

/-- The numeral in `value` is the inverse of 2^64 mod P (R10). -/
theorem radix_mul_inverse_modEq : 2 ^ 64 * 0xFFFFFFFE00000001 ≡ 1 [MOD Config.P] := by decide

theorem value_lt (w : Word) : value w < Config.P := Nat.mod_lt _ (by decide)

/-- The value of a word, multiplied by 2^64, is the word mod P (R10). -/
theorem value_mul_radix_modEq (w : Word) : value w * 2 ^ 64 ≡ w.toNat [MOD Config.P] :=
  calc value w * 2 ^ 64
    _ ≡ w.toNat * 0xFFFFFFFE00000001 * 2 ^ 64 [MOD Config.P] := (Nat.mod_modEq _ _).mul_right _
    _ = w.toNat * (2 ^ 64 * 0xFFFFFFFE00000001) := by rw [Nat.mul_assoc, Nat.mul_comm (2 ^ 64)]
    _ ≡ w.toNat * 1 [MOD Config.P] := radix_mul_inverse_modEq.mul_left _
    _ = w.toNat := Nat.mul_one _

/-- The Montgomery word of any number stands for the number mod P. -/
theorem value_mont (v : Nat) : value (mont v) = v % Config.P := by
  change (mont v).toNat * 0xFFFFFFFE00000001 ≡ v [MOD Config.P]
  rw [mont_toNat]
  calc v * 2 ^ 64 % Config.P * 0xFFFFFFFE00000001
    _ ≡ v * 2 ^ 64 * 0xFFFFFFFE00000001 [MOD Config.P] := (Nat.mod_modEq _ _).mul_right _
    _ = v * (2 ^ 64 * 0xFFFFFFFE00000001) := Nat.mul_assoc _ _ _
    _ ≡ v * 1 [MOD Config.P] := radix_mul_inverse_modEq.mul_left _
    _ = v := Nat.mul_one _

/-- A canonical word is the Montgomery word of its value. -/
theorem mont_value {w : Word} (hw : Canonical w) : mont (value w) = w := by
  apply BitVec.eq_of_toNat_eq
  calc (mont (value w)).toNat
    _ = value w * 2 ^ 64 % Config.P := mont_toNat _
    _ = w.toNat % Config.P := value_mul_radix_modEq w
    _ = w.toNat := Nat.mod_eq_of_lt hw

/-- Settles O24: 2^64 is invertible mod P, so going to Montgomery form and taking the value undo each other. -/
theorem montgomeryFormIsABijection : Obligations.MontgomeryFormIsABijection :=
  ⟨fun v hv => ⟨mont_canonical v, (value_mont v).trans (Nat.mod_eq_of_lt hv)⟩,
    fun w hw => ⟨value_lt w, mont_value hw⟩⟩

end Sys2Proof.Safety
end

section
/-! SUPPORT. What one step can leave, said once: the engine's turn, and the event that comes next. -/

namespace Sys2Proof.Machine

open Sys2Proof Sys2Proof.Safety

theorem decodeErrorCode_ne_none (e : DecodeError) : decodeErrorCode e ≠ .none := by
  cases e <;> decide

/-- What the engine's turn can leave: nothing changed (nothing latched, or a stuck command), or a command completed
after an error of its word or after its execution (R264). -/
theorem engineStep_cases {s t : State} (h : engineStep s = .next t) :
    t = s ∨ (∃ c, c ≠ .none ∧ t = (s.recordError c).complete) ∨ ∃ i u, exec i s = .next u ∧ t = u.complete := by
  by_cases hoff : s.busy = false ∨ s.pending = none
  · rw [engineStep_off hoff] at h
    exact .inl (next_inj h)
  obtain ⟨hb, hp⟩ := not_or.1 hoff
  obtain ⟨v, hv⟩ := Option.ne_none_iff_exists'.1 hp
  rw [engineStep_latched (Bool.eq_true_of_not_eq_false hb) hv] at h
  cases hd : decodeCmd v with
  | error e =>
    rw [engineRun_error hd] at h
    exact .inr (.inl ⟨_, decodeErrorCode_ne_none e, next_inj h⟩)
  | ok i =>
    rw [engineRun_ok hd] at h
    cases hx : exec i s with
    | next u =>
      rw [hx, engineEnd_next] at h
      exact .inr (.inr ⟨i, u, hx, next_inj h⟩)
    | fault r =>
      cases r
      rw [hx, engineEnd_stuck] at h
      exact .inl (next_inj h)
    | refused r =>
      rw [hx] at h
      cases h

/-- What a step is: the engine's turn, a host access or a power-on reset, in the state in which the event is spent. -/
theorem step_cases {s t : State} (h : step s = .next t) :
    engineStep (afterTurn s) = .next t ∨ (∃ a, t = hostAccess a (afterTurn s)) ∨ t = (afterTurn s).resetBlock := by
  cases he : s.events with
  | nil =>
    have hs : afterTurn s = s := by rw [afterTurn, he, List.tail_nil, ← he]
    rw [step_idle he] at h
    exact .inl (hs.symm ▸ h)
  | cons e rest =>
    have hs : afterTurn s = { s with events := rest } := by rw [afterTurn, he, List.tail_cons]
    rw [step_event he, ← hs] at h
    cases e with
    | engine => exact .inl h
    | host a => exact .inr (.inl ⟨a, next_inj h⟩)
    | powerOn => exact .inr (.inr (next_inj h))

end Sys2Proof.Machine
end

section
/-! SUPPORT. The host's accesses: when one is accepted, what its register admits, and the step of an idle write. -/

namespace Sys2Proof.Machine

open Sys2Proof

/-- An access is accepted when its form and value are, and BUSY = 0 or it is one of those allowed while BUSY = 1. -/
theorem accessError_eq_none {s : State} {a : Access} :
    accessError s a = none ↔ formError a = none ∧ (s.busy = true → allowedWhileBusy a = true) := by
  unfold accessError
  split
  case isTrue h =>
    obtain ⟨hb, ha⟩ : s.busy = true ∧ allowedWhileBusy a = false := by simpa using h
    cases formError a <;> simp [hb, ha]
  case isFalse h =>
    have hallowed : s.busy = true → allowedWhileBusy a = true := by simpa using h
    exact (and_iff_left hallowed).symm

/-- A refused access is refused with a code, not with NONE (R225). -/
theorem accessError_ne_none {s : State} {a : Access} {c : ErrCode} (h : accessError s a = some c) : c ≠ .none := by
  have hform : ∀ c', formError a = some c' → c' ≠ .none := by
    intro c' hc'
    rcases formError_code hc' with rfl | rfl <;> decide
  unfold accessError at h
  split at h
  · split at h
    · cases h
      decide
    · rename_i c' hc'
      cases h
      split
      · decide
      · exact hform c' hc'
  · exact hform c h

/-- The form of an 8-byte write is that of its register and value (R24, R32, R64). -/
theorem formError_write {r : WinReg} {off : BitVec 9} {width : Nat} {v : Word}
    (hr : accessReg (.write off width v) = some r) : formError (.write off width v) = writeError r v := by
  simp [formError, hr]

/-- No write of CMD is allowed while BUSY = 1 (R265). -/
theorem allowedWhileBusy_write_cmd {off : BitVec 9} {width : Nat} {v : Word}
    (hr : accessReg (.write off width v) = some .cmd) : allowedWhileBusy (.write off width v) = false := by
  simp [allowedWhileBusy, hr]

/-- Every register stands at its offset (R61). -/
@[simp] theorem windowReg_offset (r : WinReg) : windowReg r.offset = some r := by
  cases r with
  | fr i => revert i; decide
  | sponge i => revert i; decide
  | cmd => decide
  | status => decide
  | ctrl => decide
  | id => decide
  | cfg => decide

@[simp] theorem accessReg_write_offset (r : WinReg) (v : Word) : accessReg (.write r.offset 8 v) = some r := by
  simp [accessReg]

/-- An 8-byte write while BUSY = 0, of a value its register admits, is carried out (R61). -/
theorem step_write_accepted {s : State} {r : WinReg} {v : Word} {rest : List Event} (hb : s.busy = false)
    (he : s.events = .host (.write r.offset 8 v) :: rest) (hv : writeError r v = none) :
    step s = .next (windowWrite r v { s with events := rest }) := by
  have ha := (accessError_idle (s := { s with events := rest }) hb _).trans
    ((formError_write (accessReg_write_offset r v)).trans hv)
  simp only [step_event he, runEvent_host, hostAccess, ha, accessReg_write_offset, acceptAccess_write]

/-- An 8-byte write while BUSY = 0, of a value its register refuses, records the error and does nothing else (R225). -/
theorem step_write_refused {s : State} {r : WinReg} {v : Word} {c : ErrCode} {rest : List Event} (hb : s.busy = false)
    (he : s.events = .host (.write r.offset 8 v) :: rest) (hv : writeError r v = some c) :
    step s = .next (({ s with events := rest } : State).recordError c) := by
  have ha := (accessError_idle (s := { s with events := rest }) hb _).trans
    ((formError_write (accessReg_write_offset r v)).trans hv)
  simp only [step_event he, runEvent_host, hostAccess, ha, refuseAccess_write]

end Sys2Proof.Machine
end

section
/-! SUPPORT. Canonical words: the permutation, the initial sponge state and the sampler give and keep them (R24, R26). -/

namespace Sys2Proof.Safety

open Sys2Proof Sys2Proof.Machine

/-- The permutation's output is canonical whatever it is run on: its last layer is a field addition (R109, R141). -/
theorem tip5_canonical (T : Tables) (s : Sponge) : SpongeCanonical (tip5 T s) := by
  intro i
  rw [tip5_eq, tip5Round, addConstants_get]
  exact fadd_canonical _ _

theorem initSponge_canonical (dom : Domain) : SpongeCanonical (initSponge dom) := by
  intro i
  rw [initSponge_get]
  split
  · decide
  · split <;> decide

theorem mem_rateOf {sp : Sponge} {w : Word} (h : w ∈ (rateOf sp).toList) : ∃ i : Fin 16, w = sp[i] := by
  obtain ⟨k, hk, rfl⟩ := List.getElem_of_mem h
  have hk10 : k < 10 := by simpa using hk
  exact ⟨⟨k, by omega⟩, by simp [rateOf]⟩

/-- The invariant of the sponge and the queue that a sampling command works on (R24, R26). -/
structure SamplerInv (m : Sampler) : Prop where
  sponge_canonical : SpongeCanonical m.sponge
  q_canonical : ∀ w ∈ m.q, Canonical w
  q_length : m.q.length ≤ 10

variable {T : Tables} {m : Sampler}

theorem SamplerInv.refill (h : SamplerInv m) (kind : QKind) : SamplerInv (refill T kind m) where
  sponge_canonical := tip5_canonical T m.sponge
  q_canonical w hw := by
    obtain ⟨i, rfl⟩ := mem_rateOf (mem_queueOrder.1 hw)
    exact h.sponge_canonical i
  q_length := (queueOrder_length kind _).le

theorem SamplerInv.refillIfEmpty (h : SamplerInv m) (kind : QKind) : SamplerInv (refillIfEmpty T kind m) := by
  unfold Machine.refillIfEmpty
  split
  · exact h.refill kind
  · exact h

theorem SamplerInv.nextElement (h : SamplerInv m) (kind : QKind) : SamplerInv (nextElement T kind m).2 :=
  have h' := h.refillIfEmpty (T := T) kind
  { sponge_canonical := h'.sponge_canonical
    q_canonical := fun w hw => h'.q_canonical w (List.mem_of_mem_tail hw)
    q_length := by
      show (Machine.refillIfEmpty T kind m).q.tail.length ≤ 10
      have := h'.q_length
      rw [List.length_tail]
      omega }

theorem SamplerInv.drawElements (h : SamplerInv m) (kind : QKind) (k : Nat) :
    SamplerInv (drawElements T kind k m).2 := by
  induction k generalizing m with
  | zero => exact h
  | succ k ih => exact ih (h.nextElement kind)

theorem SamplerInv.nextAccepted {fuel : Nat} {e : Word} {m' : Sampler} (h : SamplerInv m)
    (hn : nextAccepted T fuel m = some (e, m')) : SamplerInv m' := by
  induction fuel generalizing m with
  | zero => cases hn
  | succ fuel ih =>
    have hnext := h.nextElement (T := T) .smpi
    rw [nextAccepted_succ] at hn
    split at hn
    · exact ih hnext hn
    · rwa [Option.some.inj hn] at hnext

theorem SamplerInv.drawAccepted {k : Nat} {es : List Word} {m' : Sampler} (h : SamplerInv m)
    (hd : drawAccepted T k m = some (es, m')) : SamplerInv m' := by
  induction k generalizing m es with
  | zero =>
    cases hd
    exact h
  | succ k ih =>
    obtain ⟨e, m1, rest, hn, hr, -⟩ := drawAccepted_succ_eq_some.1 hd
    exact ih (h.nextAccepted hn) hr

end Sys2Proof.Safety
end

section
/-! The invariant: it holds at reset, each operation on the state keeps it, and so every step does. -/

namespace Sys2Proof.Safety

open Sys2Proof Sys2Proof.Machine

/-- Settles O12. -/
theorem invariantAtReset : Obligations.InvariantAtReset where
  sponge_canonical i := by
    show Canonical (Vector.replicate 16 0 : Sponge)[i]
    rw [Fin.getElem_fin, Vector.getElem_replicate]
    decide
  q_canonical _ hw := absurd hw List.not_mem_nil
  q_length := Nat.zero_le _
  q_kind _ := rfl
  busy_pending := rfl
  pending_last _ hv := nomatch hv
  err_code := by decide

variable {s t : State}

/-! Updates of what the invariant does not speak of. -/

theorem StateInv.afterTurn (h : StateInv s) : StateInv (afterTurn s) := { h with }
theorem StateInv.withFr (h : StateInv s) (fr : Vector Word 16) : StateInv { s with fr := fr } := { h with }
theorem StateInv.setFr (h : StateInv s) (rd : Reg) (v : Word) : StateInv (s.setFr rd v) := h.withFr _
theorem StateInv.setFrPrefix (h : StateInv s) (ws : List Word) : StateInv (s.setFrPrefix ws) := h.withFr _
theorem StateInv.setDom (h : StateInv s) (d : Domain) : StateInv (s.setDom d) := { h with }
theorem StateInv.setCmp (h : StateInv s) (b : Bool) : StateInv (s.setCmp b) := { h with }
theorem StateInv.reply (h : StateInv s) (v : Word) : StateInv (s.reply v) := { h with }
theorem stateInv_resetBlock (s : State) : StateInv s.resetBlock := { invariantAtReset with }

/-! The sponge and the queue. -/

theorem StateInv.setSponge (h : StateInv s) {sp : Sponge} (hsp : SpongeCanonical sp) : StateInv (s.setSponge sp) :=
  { h with sponge_canonical := hsp }

theorem StateInv.setSpongeWord (h : StateInv s) (i : Reg) {v : Word} (hv : Canonical v) :
    StateInv (s.setSpongeWord i v) :=
  { h with
    sponge_canonical := fun j => by
      by_cases hj : j = i
      · subst hj
        rwa [State.setSpongeWord_get_self]
      · rw [State.setSpongeWord_get_ne _ hj]
        exact h.sponge_canonical j }

theorem StateInv.flush (h : StateInv s) : StateInv s.flush :=
  { h with
    q_canonical := fun _ hw => absurd hw List.not_mem_nil
    q_length := Nat.zero_le _
    q_kind := fun _ => rfl }

theorem StateInv.sampler (h : StateInv s) (start : Bool) : SamplerInv (s.sampler start) where
  sponge_canonical := h.sponge_canonical
  q_canonical w hw := by
    cases start with
    | true => exact absurd hw List.not_mem_nil
    | false => exact h.q_canonical w hw
  q_length := by
    cases start with
    | true => exact Nat.zero_le _
    | false => exact h.q_length

theorem StateInv.setSampler (h : StateInv s) {kind : QKind} {m : Sampler} (hk : kind ≠ .none) (hm : SamplerInv m) :
    StateInv (s.setSampler kind m) :=
  { h with
    sponge_canonical := hm.sponge_canonical
    q_canonical := hm.q_canonical
    q_length := hm.q_length
    q_kind := fun hn => absurd hn hk }

/-! The error state and the command lifecycle. -/

theorem StateInv.recordError (h : StateInv s) {c : ErrCode} (hc : c ≠ .none) : StateInv (s.recordError c) := by
  cases hs : s.err with
  | true => rwa [State.recordError_of_err hs]
  | false =>
    rw [State.recordError, hs]
    exact { h with err_code := iff_of_true rfl hc }

theorem StateInv.clearError (h : StateInv s) : StateInv s.clearError :=
  { h with err_code := by simp }

theorem StateInv.complete (h : StateInv s) : StateInv s.complete :=
  { h with
    busy_pending := rfl
    pending_last := fun _ hv => nomatch hv }

theorem StateInv.pending_eq_none (h : StateInv s) (hb : s.busy = false) : s.pending = none := by
  rw [← Option.not_isSome_iff_eq_none, ← h.busy_pending, hb]
  exact Bool.false_ne_true

/-- A CMD write latches its value, or, under ERR = 1, changes LASTCMD alone, with nothing latched (R264, R224). -/
theorem StateInv.hostWriteCmd (h : StateInv s) (hb : s.busy = false) (v : Word) : StateInv (hostWriteCmd v s) := by
  unfold Machine.hostWriteCmd
  split
  · exact { h with pending_last := fun w hw => by cases (h.pending_eq_none hb).symm.trans hw }
  · exact
      { h with
        busy_pending := rfl
        pending_last := fun w hw => by cases hw; rfl }

theorem StateInv.ctrlWrite (h : StateInv s) (v : Word) : StateInv (ctrlWrite v s) := by
  unfold Machine.ctrlWrite
  split
  · exact stateInv_resetBlock s
  · split
    · exact h.clearError
    · exact h

/-! The commands and the host's accesses. -/

theorem StateInv.exec {i : Instr} (h : StateInv s) (hx : exec i s = .next t) : StateInv t := by
  cases execNext hx with
  | error _ _ c hc => exact h.recordError hc
  | nop => exact h
  | fr _ _ rd v => exact h.setFr rd v
  | cmp _ _ b => exact h.setCmp b
  | sinit dom => exact ((h.setSponge (initSponge_canonical dom)).setDom dom).flush
  | permute _ _ sp => exact (h.setSponge (tip5_canonical _ sp)).flush
  | squeeze => exact ((h.setFrPrefix _).setSponge (tip5_canonical _ _)).flush
  | hashf n x => exact (((h.setFrPrefix _).setSponge (tip5_canonical _ _)).setDom _).flush
  | smpi start _ _ _ es m hd => exact (h.setFrPrefix _).setSampler (by decide) ((h.sampler start).drawAccepted hd)
  | smps start => exact (h.setFrPrefix _).setSampler (by decide) ((h.sampler start).drawElements _ _)

/-- An accepted write: S takes canonical words only (R24), and CMD is written with BUSY = 0 only (R265). -/
theorem StateInv.windowWrite (h : StateInv s) {r : WinReg} {v : Word} (hv : writeError r v = none)
    (hb : r = .cmd → s.busy = false) : StateInv (windowWrite r v s) := by
  cases r with
  | fr i => exact h.setFr i v
  | sponge i =>
    have hc : Canonical v := by
      by_contra hc
      simp [writeError, hc] at hv
    exact (h.setSpongeWord i hc).flush
  | cmd => exact h.hostWriteCmd (hb rfl) v
  | ctrl => exact h.ctrlWrite v
  | status => exact h
  | id => exact h
  | cfg => exact h

theorem StateInv.hostAccess (h : StateInv s) (a : Access) : StateInv (hostAccess a s) := by
  rcases hostAccess_cases a s with ⟨c, hc, ha⟩ | ⟨r, hn, hr, ha⟩ <;> rw [ha]
  · have hrec := h.recordError (accessError_ne_none hc)
    cases a with
    | read => exact hrec.reply 0
    | write => exact hrec
  · cases a with
    | read => exact h.reply _
    | write off width v =>
      obtain ⟨hform, hbusy⟩ := accessError_eq_none.1 hn
      refine h.windowWrite ((formError_write hr).symm.trans hform) fun hcmd => ?_
      subst hcmd
      rw [allowedWhileBusy_write_cmd hr] at hbusy
      exact Bool.eq_false_iff.2 fun hb => Bool.false_ne_true (hbusy hb)

theorem StateInv.engineStep (h : StateInv s) (he : engineStep s = .next t) : StateInv t := by
  rcases engineStep_cases he with rfl | ⟨c, hc, rfl⟩ | ⟨i, u, hx, rfl⟩
  · exact h
  · exact (h.recordError hc).complete
  · exact (h.exec hx).complete

/-- Settles O13: the engine's turn, a host access and a reset each keep the invariant. -/
theorem everyStepKeepsTheInvariant : Obligations.EveryStepKeepsTheInvariant := by
  intro s t h hstep
  rcases step_cases hstep with he | ⟨a, rfl⟩ | rfl
  · exact h.afterTurn.engineStep he
  · exact h.afterTurn.hostAccess a
  · exact stateInv_resetBlock _

end Sys2Proof.Safety
end

section
/-! SUPPORT. The errors of R223 taken apart: when a command meets none, and which one a sponge command meets. -/

namespace Sys2Proof.Safety

open Sys2Proof Sys2Proof.Machine

variable {i : Instr} {s : State}

theorem commandError_eq_none :
    commandError i s = none ↔ lengthError i = false ∧ boundError i s = false ∧ sequenceError i s = false ∧
      operandError i s = false ∧ inverseError i s = false := by
  unfold commandError
  split_ifs <;> simp_all

theorem operandError_eq_false : operandError i s = false ↔ ∀ r ∈ fieldOperands i, Canonical s.fr[r] := by
  simp [operandError]

theorem mem_finRange_take {N n : Nat} {r : Fin N} : r ∈ (List.finRange N).take n ↔ r.val < n := by
  simp [List.mem_take_iff_getElem, Fin.ext_iff]

/-- The sponge commands meet no error but BAD_LENGTH and OPERAND_NONCANON (R223). -/
theorem commandError_of_flushesQueue (hf : flushesQueue i = true) :
    commandError i s =
      if lengthError i then some .badLength else if operandError i s then some .operandNoncanon else none := by
  cases i with
  | sinit | perm | absorb | squeeze | padabs | hashf =>
    simp [commandError, boundError, sequenceError, inverseError]
  | _ => cases hf

end Sys2Proof.Safety
end

section
/-! The frames of the commands, each by the cases of `ExecNext` (R22, R25, R27, R29). -/

namespace Sys2Proof.Safety

open Sys2Proof Sys2Proof.Machine

variable {s t : State}

/-- A write of the first registers leaves those beyond its words alone (R22, R267). -/
theorem setFrPrefix_get_of_length_le {ws : List Word} {r : Reg} (h : ws.length ≤ r.val) :
    (s.setFrPrefix ws).fr[r] = s.fr[r] := by
  rw [State.setFrPrefix_get, List.getElem?_eq_none h, Option.getD_none]

/-- Settles O16: a command writes FR[rd] alone, or as many of the first registers as R22 says, or nothing of FR. -/
theorem frChangesOnlyAsListed : Obligations.FrChangesOnlyAsListed := by
  intro i s t r hx hw
  cases execNext hx with
  | error _ _ c => rw [State.recordError_fr]
  | nop => rfl
  | fr _ _ rd v hrd =>
    have hne : r ≠ rd := by
      rintro rfl
      rw [hrd] at hw
      cases hw
    exact State.setFr_get_ne s hne v
  | cmp => rfl
  | sinit => rw [State.flush_fr, State.setDom_fr, State.setSponge_fr]
  | permute => rw [State.flush_fr, State.setSponge_fr]
  | squeeze =>
    rw [State.flush_fr, State.setSponge_fr]
    exact setFrPrefix_get_of_length_le (by simpa [writesFr] using hw)
  | hashf n x =>
    rw [State.flush_fr, State.setDom_fr, State.setSponge_fr]
    exact setFrPrefix_get_of_length_le (by simpa [writesFr] using hw)
  | smpi _ _ count _ es m hd =>
    rw [State.setSampler_fr]
    exact setFrPrefix_get_of_length_le (by simpa [writesFr, drawAccepted_length hd] using hw)
  | smps start count =>
    rw [State.setSampler_fr]
    exact setFrPrefix_get_of_length_le (by simpa [writesFr] using hw)

/-- Settles O17: each effect of `ExecNext` keeps the fields it does not write. -/
theorem statusAndSpongeChangeOnlyAsListed : Obligations.StatusAndSpongeChangeOnlyAsListed := by
  intro i s t hx
  cases execNext hx with
  | error => simp
  | nop => simp
  | fr => simp
  | cmp _ _ b hw => simp [hw]
  | sinit => simp [writesDom, writesSponge, flushesQueue]
  | permute _ _ sp hi =>
    have hs : writesSponge i = true := by rcases hi with rfl | rfl | ⟨n, rfl⟩ <;> rfl
    simp [hs]
  | squeeze => simp [writesSponge, flushesQueue]
  | hashf => simp [writesDom, writesSponge, flushesQueue]
  | smpi => simp [writesSponge, samples]
  | smps => simp [writesSponge, samples]

/-! A command of the field unit on canonical operands records nothing. -/

theorem err_of_withField {i : Instr} {r : Reg} {g : Word → State} (hc : ∀ x ∈ [r], Canonical s.fr[x])
    (hx : exec i s = withField r s fun a => .next (g a)) (hg : ∀ a, (g a).err = s.err) (h : exec i s = .next t) :
    t.err = s.err := by
  rw [hx, withField_ok (hc r (by simp))] at h
  rw [next_inj h, hg]

theorem err_of_withFields {i : Instr} {r1 r2 : Reg} {g : Word → Word → State}
    (hc : ∀ x ∈ [r1, r2], Canonical s.fr[x]) (hx : exec i s = withFields r1 r2 s fun a b => .next (g a b))
    (hg : ∀ a b, (g a b).err = s.err) (h : exec i s = .next t) : t.err = s.err := by
  rw [hx, withFields_ok (hc r1 (by simp)) (hc r2 (by simp))] at h
  rw [next_inj h, hg]

/-- A command of the field unit that meets no error leaves ERR as it was (R222, R223). -/
theorem fieldUnit_err {i : Instr} (hs : writesSponge i = false) (hn : commandError i s = none)
    (h : exec i s = .next t) : t.err = s.err := by
  obtain ⟨-, -, -, hops, hinv⟩ := commandError_eq_none.1 hn
  have hc := operandError_eq_false.1 hops
  cases i with
  | nop => rw [next_inj h]
  | fadd rd a b => exact err_of_withFields hc (exec_fadd s rd a b) (fun _ _ => s.setFr_err _ _) h
  | fsub rd a b => exact err_of_withFields hc (exec_fsub s rd a b) (fun _ _ => s.setFr_err _ _) h
  | fmul rd a b => exact err_of_withFields hc (exec_fmul s rd a b) (fun _ _ => s.setFr_err _ _) h
  | feq a b => exact err_of_withFields hc (exec_feq s a b) (fun _ _ => s.setCmp_err _) h
  | flt a b => exact err_of_withFields hc (exec_flt s a b) (fun _ _ => s.setCmp_err _) h
  | fgt a b => exact err_of_withFields hc (exec_fgt s a b) (fun _ _ => s.setCmp_err _) h
  | fneg rd a => exact err_of_withField hc (exec_fneg s rd a) (fun _ => s.setFr_err _ _) h
  | fsqr rd a => exact err_of_withField hc (exec_fsqr s rd a) (fun _ => s.setFr_err _ _) h
  | fcan rd a => exact err_of_withField hc (exec_fcan s rd a) (fun _ => s.setFr_err _ _) h
  | fpow rd a b => exact err_of_withField hc (exec_fpow s rd a b) (fun _ => s.setFr_err _ _) h
  | finv rd a =>
    have h0 : s.fr[a] ≠ 0 := of_decide_eq_false hinv
    rw [exec_finv, withField_ok (hc a (by simp [fieldOperands])), if_neg h0] at h
    rw [next_inj h, State.setFr_err]
  | fredc rd a b =>
    rw [exec_fredc] at h
    rw [next_inj h, State.setFr_err]
  | ftom rd a =>
    rw [exec_ftom] at h
    rw [next_inj h, State.setFr_err]
  | _ => cases hs

/-- Settles O18: a command of the field unit writes FR[rd] or CMP or records an error; without an error of its own the
last changes nothing, ERR being 1 already. -/
theorem fieldUnitFrame : Obligations.FieldUnitFrame := by
  intro i s t hs hn hx
  have herr := fieldUnit_err hs hn hx
  have hfr := fun r => frChangesOnlyAsListed i s t r hx
  obtain ⟨hcmp, -⟩ := statusAndSpongeChangeOnlyAsListed i s t hx
  refine ⟨t.fr, t.cmp, ?_, hfr, hcmp⟩
  cases execNext hx with
  | error _ _ c =>
    rw [State.recordError_err] at herr
    rw [State.recordError_of_err herr.symm]
  | nop => rfl
  | fr => rfl
  | cmp => rfl
  | permute _ _ _ hi => rcases hi with rfl | rfl | ⟨n, rfl⟩ <;> cases hs
  | _ => cases hs

/-! The flush (R27). -/

/-- A command flushes the queue when its checks pass, and leaves it as it was when it meets an error (R27). -/
def FlushesUnlessError (i : Instr) (s : State) : Prop :=
  (commandError i s = none → ∃ t, exec i s = .next t ∧ t.q = [] ∧ t.qkind = .none) ∧
    ∀ c, commandError i s = some c → ∃ t, exec i s = .next t ∧ t.q = s.q ∧ t.qkind = s.qkind

theorem FlushesUnlessError.of_flush {i : Instr} {u : State} (hn : commandError i s = none)
    (hx : exec i s = .next u.flush) : FlushesUnlessError i s :=
  ⟨fun _ => ⟨_, hx, rfl, rfl⟩, fun _ hc => by cases hn.symm.trans hc⟩

theorem FlushesUnlessError.of_error {i : Instr} {c d : ErrCode} (hc : commandError i s = some c)
    (hx : exec i s = .next (s.recordError d)) : FlushesUnlessError i s :=
  ⟨fun hn => (by cases hn.symm.trans hc), fun _ _ => ⟨_, hx, State.recordError_q s d, State.recordError_qkind s d⟩⟩

/-- A sponge command of legal length on FR[0..n-1] (R174, R177, R178). -/
theorem FlushesUnlessError.of_withPrefix {i : Instr} {n : Nat} {g : Block → State} (hf : flushesQueue i = true)
    (hl : lengthError i = false) (hops : fieldOperands i = (List.finRange 16).take n)
    (hx : exec i s = withPrefix n s fun x => .next (g x).flush) : FlushesUnlessError i s := by
  have hop : operandError i s = false ↔ ∀ r : Reg, r.val < n → Canonical s.fr[r] := by
    simp only [operandError_eq_false, hops, mem_finRange_take]
  have he := commandError_of_flushesQueue (s := s) hf
  by_cases hc : ∀ r : Reg, r.val < n → Canonical s.fr[r]
  · exact of_flush (by simp [he, hl, hop.2 hc]) (hx.trans (withPrefix_ok hc))
  · have hbad : operandError i s = true := by
      rwa [← hop, Bool.not_eq_false] at hc
    exact of_error (c := .operandNoncanon) (by simp [he, hl, hbad]) (hx.trans (withPrefix_error hc))

/-- Settles O19: SINIT, PERM and SQUEEZE meet no error; the others check their length, then FR[0..n-1]. -/
theorem spongeCommandsFlush : Obligations.SpongeCommandsFlush := by
  intro i s hf
  change FlushesUnlessError i s
  cases i with
  | sinit dom => exact .of_flush rfl (exec_sinit s dom)
  | perm => exact .of_flush rfl (exec_perm s)
  | squeeze => exact .of_flush rfl (exec_squeeze s)
  | absorb => exact .of_withPrefix rfl rfl rfl (exec_absorb s)
  | padabs n =>
    by_cases hn : n ≤ 9
    · exact .of_withPrefix rfl (by simpa [lengthError] using hn) rfl (exec_padabs s hn)
    · have hl : lengthError (.padabs n) = true := by simpa [lengthError] using hn
      exact .of_error (by rw [commandError, if_pos hl]) (exec_padabs_long s (Nat.lt_of_not_le hn))
  | hashf n =>
    by_cases hn : n ≤ 10
    · exact .of_withPrefix rfl (by simpa [lengthError] using hn) rfl (exec_hashf s hn)
    · have hl : lengthError (.hashf n) = true := by simpa [lengthError] using hn
      exact .of_error (by rw [commandError, if_pos hl]) (exec_hashf_long s (Nat.lt_of_not_le hn))
  | _ => cases hf

end Sys2Proof.Safety
end

section
/-! The reset values (R38), STATUS (R31), and the host's writes of FR and S while BUSY = 0 (R21, R24). -/

namespace Sys2Proof.Machine

open Sys2Proof

/-- Settles O10. -/
theorem resetValues : Obligations.ResetValues := by
  have hz : ∀ i : Fin 16, (Vector.replicate 16 (0 : Word))[i] = 0 := fun i => Vector.getElem_replicate i.isLt
  refine ⟨hz, hz, ?_, rfl, rfl, rfl, rfl, rfl, rfl, rfl, rfl, rfl⟩
  apply Vector.ext
  intro k hk
  have hinit := initSponge_get .variableLength ⟨k, hk⟩
  simp only [Domain.bit, Bool.false_eq_true, if_false, ite_self] at hinit
  exact (hz ⟨k, hk⟩).trans hinit.symm

/-! The fields of STATUS, each read back at its place (R31). -/

@[simp] theorem statusWord_zeros (s : State) : (statusWord s).extractLsb' 4 4 = 0 := by
  simp (disch := omega) only [statusWord, BitVec.extractLsb'_append_eq_of_le, BitVec.extractLsb'_append_eq_of_add_le]
  simp

@[simp] theorem statusWord_errCode (s : State) : (statusWord s).extractLsb' 8 8 = errCodeByte s.errCode := by
  simp (disch := omega) only [statusWord, BitVec.extractLsb'_append_eq_of_le, BitVec.extractLsb'_append_eq_of_add_le]
  simp

@[simp] theorem statusWord_qLength (s : State) : (statusWord s).extractLsb' 16 4 = BitVec.ofNat 4 s.q.length := by
  simp (disch := omega) only [statusWord, BitVec.extractLsb'_append_eq_of_le, BitVec.extractLsb'_append_eq_of_add_le]
  simp

@[simp] theorem statusWord_qkind (s : State) : (statusWord s).extractLsb' 20 2 = qkindBits s.qkind := by
  simp (disch := omega) only [statusWord, BitVec.extractLsb'_append_eq_of_le, BitVec.extractLsb'_append_eq_of_add_le]
  simp

@[simp] theorem statusWord_top (s : State) : (statusWord s).extractLsb' 22 42 = 0 := by
  simp (disch := omega) only [statusWord, BitVec.extractLsb'_append_eq_of_le]
  simp

/-- The four flags of STATUS (R31). -/
theorem statusWord_flags (s : State) :
    (statusWord s).getLsbD 0 = s.busy ∧ (statusWord s).getLsbD 1 = s.err ∧ (statusWord s).getLsbD 2 = s.cmp ∧
      (statusWord s).getLsbD 3 = s.dom.bit := by
  simp only [statusWord, BitVec.getLsbD_append]
  simp

theorem domainBit_eq_decide (d : Domain) : d.bit = decide (d = .fixedLength) := by
  cases d <;> rfl

/-- Settles O54: STATUS is the concatenation of its fields, and a length of at most 10 fits its four bits. -/
theorem statusLayout : Obligations.StatusLayout := by
  intro s hq
  obtain ⟨hbusy, herr, hcmp, hdom⟩ := statusWord_flags s
  have hlen : ((statusWord s).extractLsb' 16 4).toNat = s.q.length := by
    rw [statusWord_qLength, BitVec.toNat_ofNat, Nat.mod_eq_of_lt (by omega)]
  refine ⟨hbusy, herr, hcmp, hdom.trans (domainBit_eq_decide _), statusWord_zeros s, ?_, hlen, ?_, statusWord_top s⟩
  · cases he : s.errCode <;> simp [he, errCodeByte]
  · cases hk : s.qkind <;> simp [hk, qkindBits]

/-- Settles O56: FR admits every word, S the canonical ones. -/
theorem idleWritesOfFrAndSponge : Obligations.IdleWritesOfFrAndSponge := by
  intro s i v rest hb
  refine ⟨fun he => step_write_accepted hb he rfl, fun he => ⟨fun hv => ?_, fun hv => ?_⟩⟩
  · exact step_write_accepted hb he (by simp [writeError, hv])
  · exact step_write_refused hb he (by simp [writeError, hv])

end Sys2Proof.Machine
end

section
/-! The window: where its registers stand (R61, R62, R64), the byte form of a word (R63, R67), and the accesses while
BUSY = 0 that return a register or are refused for their form (R32, R61, R62, R64, R225). -/

namespace Sys2Proof.Machine

open Sys2Proof

/-- The offsets without a register: the misaligned ones (R62) and those from 0x128 on (R64). -/
theorem windowReg_eq_none {off : BitVec 9} : windowReg off = none ↔ off.toNat % 8 ≠ 0 ∨ 0x128 ≤ off.toNat := by
  unfold windowReg
  split_ifs <;> simp only [true_iff, false_iff] <;> omega

theorem WinReg.offset_fr_toNat (i : Reg) : (WinReg.fr i).offset.toNat = 8 * i.val := by
  rw [WinReg.offset, BitVec.toNat_ofNat, Nat.mod_eq_of_lt (by omega)]

theorem WinReg.offset_sponge_toNat (i : Reg) : (WinReg.sponge i).offset.toNat = 0x080 + 8 * i.val := by
  rw [WinReg.offset, BitVec.toNat_ofNat, Nat.mod_eq_of_lt (by omega)]

/-- A register is found at its own offset only (R61). -/
theorem eq_offset_of_windowReg {off : BitVec 9} {r : WinReg} (h : windowReg off = some r) : off = r.offset := by
  apply BitVec.eq_of_toNat_eq
  unfold windowReg at h
  split_ifs at h <;> cases h
  · rw [WinReg.offset_fr_toNat]
    dsimp only
    omega
  · rw [WinReg.offset_sponge_toNat]
    dsimp only
    omega
  -- CMD, STATUS, CTRL, ID and CFG: the offset tested for is the register's.
  all_goals assumption

/-- Settles O53: the registers stand at the mapped offsets, one at each. -/
theorem windowMap : Obligations.WindowMap :=
  ⟨windowReg_offset, fun _ _ => eq_offset_of_windowReg, fun _ => windowReg_eq_none,
    fun i => ⟨WinReg.offset_fr_toNat i, WinReg.offset_sponge_toNat i⟩⟩

/-- A register's offset is aligned and mapped, since a register is found there. -/
theorem WinReg.offset_aligned_mapped (r : WinReg) : r.offset.toNat % 8 = 0 ∧ r.offset.toNat < 0x128 := by
  have hmapped : ¬ (r.offset.toNat % 8 ≠ 0 ∨ 0x128 ≤ r.offset.toNat) := by simp [← windowReg_eq_none]
  omega

/-! The byte form (R63, R67). -/

theorem wordByte_getLsbD (w : Word) (k : Nat) (b : Fin 8) :
    (wordByte w k).getLsbD b.val = w.getLsbD (8 * k + b.val) := by
  simp [wordByte]

theorem wordByte_toNat (w : Word) (k : Nat) : (wordByte w k).toNat = w.toNat / 2 ^ (8 * k) % 2 ^ 8 := by
  rw [wordByte, BitVec.extractLsb'_toNat, Nat.shiftRight_eq_div_pow]

/-- A word is the sum of its base-256 digits (R63). -/
theorem wordOfBytes_wordByte (w : Word) : wordOfBytes (fun k => wordByte w k.val) = w := by
  have hw : w.toNat < 2 ^ 64 := w.isLt
  apply BitVec.eq_of_toNat_eq
  simp only [wordOfBytes, wordByte_toNat, BitVec.toNat_ofNat, Fin.coe_ofNat_eq_mod, Nat.reduceMod, Nat.reduceMul,
    Nat.reducePow]
  omega

/-- Inside a register's eight bytes the window shows that register's bytes (R63). -/
theorem windowByte_offset_add (s : State) (r : WinReg) (k : Fin 8) :
    windowByte s (r.offset + BitVec.ofNat 9 k.val) = some (wordByte (windowRead s r) k.val) := by
  obtain ⟨haligned, hmapped⟩ := r.offset_aligned_mapped
  have hsum : (r.offset + BitVec.ofNat 9 k.val).toNat = r.offset.toNat + k.val := by
    rw [BitVec.toNat_add, BitVec.toNat_ofNat]
    omega
  have hbase : (r.offset.toNat + k.val) / 8 * 8 = r.offset.toNat := by omega
  have hbyte : (r.offset.toNat + k.val) % 8 = k.val := by omega
  rw [windowByte, hsum, hbase, hbyte, BitVec.ofNat_toNat, BitVec.setWidth_eq, windowReg_offset, Option.map_some]

/-- Settles O59: a word is its bytes put together, and an offset splits into the register's and the byte's index. -/
theorem byteFormRoundTrip : Obligations.ByteFormRoundTrip :=
  ⟨fun w => ⟨wordOfBytes_wordByte w, fun k => wordByte_getLsbD w k.val⟩, windowByte_offset_add⟩

/-! Accesses while BUSY = 0 (R61, R225). -/

@[simp] theorem accessReg_read_offset (r : WinReg) : accessReg (.read r.offset 8) = some r := by
  simp [accessReg]

/-- A read that names a register has no fault of form (R61). -/
theorem formError_read {r : WinReg} {off : BitVec 9} {width : Nat} (hr : accessReg (.read off width) = some r) :
    formError (.read off width) = none := by
  simp [formError, hr]

/-- An 8-byte read while BUSY = 0 delivers its register (R61). -/
theorem step_read_accepted {s : State} {r : WinReg} {rest : List Event} (hb : s.busy = false)
    (he : s.events = .host (.read r.offset 8) :: rest) :
    step s = .next (({ s with events := rest } : State).reply (windowRead s r)) := by
  have ha := (accessError_idle (s := { s with events := rest }) hb _).trans (formError_read (accessReg_read_offset r))
  have hread : windowRead { s with events := rest } r = windowRead s r := by cases r <;> rfl
  simp only [step_event he, runEvent_host, hostAccess, ha, accessReg_read_offset, acceptAccess_read, hread]

/-- Settles O55: the word delivered is, register by register, the one `windowRead` gives. -/
theorem idleReadsReturnTheRegisters : Obligations.IdleReadsReturnTheRegisters := by
  intro s r rest hb he
  rw [step_read_accepted hb he]
  cases r <;> rfl

/-- An access whose form or value is refused while BUSY = 0 is refused with that code (R225). -/
theorem step_refused {s : State} {a : Access} {c : ErrCode} {rest : List Event} (hb : s.busy = false)
    (he : s.events = .host a :: rest) (hf : formError a = some c) :
    step s = .next (refuseAccess c a { s with events := rest }) := by
  have ha := (accessError_idle (s := { s with events := rest }) hb a).trans hf
  simp only [step_event he, runEvent_host, hostAccess, ha]

/-- The accesses that name no register: of another width (R62), misaligned (R62) or unmapped (R64). -/
theorem accessReg_read_eq_none {off : BitVec 9} {width : Nat} :
    accessReg (.read off width) = none ↔ width ≠ 8 ∨ off.toNat % 8 ≠ 0 ∨ 0x128 ≤ off.toNat := by
  rw [← windowReg_eq_none, accessReg]
  split
  case isTrue h => simp [h]
  case isFalse h => simp [h]

theorem accessReg_write (off : BitVec 9) (width : Nat) (v : Word) :
    accessReg (.write off width v) = accessReg (.read off width) := rfl

/-- CTRL refuses a value with a bit above ERR_CLR and SOFT_RESET (R32). -/
theorem writeError_ctrl_reserved {v : Word} (hv : 4 ≤ v.toNat) : writeError .ctrl v = some .hostAccess := by
  have hne : v >>> 2 ≠ 0 := by
    rw [ne_eq, ← BitVec.toNat_inj, BitVec.toNat_ushiftRight, Nat.shiftRight_eq_div_pow]
    exact Nat.ne_of_gt (Nat.div_pos hv (by decide))
  rw [writeError, if_neg hne]

/-- The writes whose form or value is refused with HOST_ACCESS (R32, R62, R64). -/
theorem formError_write_malformed {off : BitVec 9} {width : Nat} {v : Word}
    (h : width ≠ 8 ∨ off.toNat % 8 ≠ 0 ∨ 0x128 ≤ off.toNat ∨ off = 0x108 ∨ off = 0x118 ∨ off = 0x120 ∨
      (off = 0x110 ∧ 4 ≤ v.toNat)) : formError (.write off width v) = some .hostAccess := by
  by_cases hnone : accessReg (.write off width v) = none
  · exact formError_unmapped hnone
  obtain ⟨hw, haligned, hmapped⟩ : width = 8 ∧ off.toNat % 8 = 0 ∧ off.toNat < 0x128 := by
    rw [accessReg_write, accessReg_read_eq_none] at hnone
    omega
  subst hw
  have hform (r : WinReg) : formError (.write r.offset 8 v) = writeError r v :=
    formError_write (accessReg_write_offset r v)
  rcases h with h | h | h | rfl | rfl | rfl | ⟨rfl, hv⟩
  · exact absurd rfl h
  · exact absurd haligned h
  · exact absurd hmapped (Nat.not_lt.2 h)
  · exact hform .status
  · exact hform .id
  · exact hform .cfg
  · exact (hform .ctrl).trans (writeError_ctrl_reserved hv)

/-- Settles O57: a malformed read names no register, and a malformed write is one of `formError_write_malformed`. -/
theorem malformedAccessesAreRefused : Obligations.MalformedAccessesAreRefused := by
  intro s off width v rest hb
  refine ⟨fun he h => ?_, fun he h => ?_⟩
  · rw [step_refused hb he (formError_unmapped (accessReg_read_eq_none.2 h)), refuseAccess_read, State.reply,
      State.recordError_replies]
  · exact step_refused hb he (formError_write_malformed h)

end Sys2Proof.Machine
end

section
/-! The encoding: a word is its fields (R81), the decoder and the encoder read and write the same fields, and
encoding the command read in a row gives the word back but for the bits its row fixes (R85). Both round trips follow
from `build_encode` and `encode_build`. -/

namespace Sys2Proof

open Laws.OpcodeByte (opcodeOf)

/-- A word is its six fields (R81). -/
theorem word_eq_of_fields {x y : BitVec 32} (hop : opField x = opField y) (hrd : rdField x = rdField y)
    (hrs1 : rs1Field x = rs1Field y) (hrs2 : rs2Field x = rs2Field y) (himm : immField x = immField y)
    (hres : x.extractLsb' 28 4 = y.extractLsb' 28 4) : x = y := by
  have hx : x.toNat < 2 ^ 32 := x.isLt
  have hy : y.toNat < 2 ^ 32 := y.isLt
  simp only [opField, rdField, rs1Field, rs2Field, immField, ← BitVec.toNat_inj, Fin.ext_iff, BitVec.val_toFin,
    BitVec.extractLsb'_toNat, Nat.shiftRight_eq_div_pow] at *
  omega

/-! The immediates (R83). -/

theorem samplingImm_toNat {start : Bool} {count : Nat} (h : count < 2 ^ 7) :
    (samplingImm start count).toNat = (if start then 2 ^ 7 else 0) + count := by
  rw [samplingImm, BitVec.toNat_ofNat]
  split <;> omega

theorem samplingImm_start {start : Bool} {count : Nat} (h : count < 2 ^ 7) :
    (samplingImm start count).getLsbD 7 = start := by
  rw [BitVec.getLsbD, samplingImm_toNat h, Nat.testBit_eq_decide_div_mod_eq]
  cases start <;> simp <;> omega

theorem samplingImm_count {start : Bool} {count k : Nat} (hk : k ≤ 7) (h : count < 2 ^ k) :
    ((samplingImm start count).extractLsb' 0 k).toNat = count := by
  have hdvd : 2 ^ k ∣ if start then 2 ^ 7 else 0 := by
    split
    · exact Nat.pow_dvd_pow 2 hk
    · exact dvd_zero _
  rw [BitVec.extractLsb'_toNat, samplingImm_toNat (h.trans_le (Nat.pow_le_pow_right (by decide) hk)),
    Nat.shiftRight_zero, Nat.add_mod, Nat.mod_eq_zero_of_dvd hdvd, Nat.zero_add, Nat.mod_mod, Nat.mod_eq_of_lt h]

/-- The domain bit, read and written again, is imm[0] alone. -/
theorem sinitImm_eq_and (b : Byte) : BitVec.ofNat 8 (Domain.ofBit (b.getLsbD 0)).bit.toNat = b &&& 0x01 := by
  revert b
  decide

/-- SMPI's `start` and `count`, read and written again, are imm[7] and imm[4:0] alone. -/
theorem smpiImm_eq_and (b : Byte) : samplingImm (b.getLsbD 7) (b.extractLsb' 0 5).toNat = b &&& 0x9F := by
  revert b
  decide

/-- SMPS's `start` and `count`, read and written again, are imm[7] and imm[2:0] alone. -/
theorem smpsImm_eq_and (b : Byte) : samplingImm (b.getLsbD 7) (b.extractLsb' 0 3).toNat = b &&& 0x87 := by
  revert b
  decide

/-! The two round trips of the fields. -/

/-- The fields of a well-formed command's word are the command's own (R81, R83). -/
theorem build_encode {i : Instr} (h : i.WellFormed) : (opcodeOf i).build (encode i) = i := by
  cases i with
  | sinit dom => cases dom <;> rfl
  | padabs n =>
    have hn : n < 2 ^ 8 := of_decide_eq_true h
    simpa [encode, opcodeOf, Opcode.build, packFields_imm] using hn
  | hashf n =>
    have hn : n < 2 ^ 8 := of_decide_eq_true h
    simpa [encode, opcodeOf, Opcode.build, packFields_imm] using hn
  | smpi start rs1 count =>
    have hc : count < 2 ^ 5 := of_decide_eq_true h
    simp only [encode, opcodeOf, Opcode.build, packFields_imm, packFields_rs1, samplingImm_start (hc.trans (by decide)),
      samplingImm_count (by decide) hc]
  | smps start count =>
    have hc : count < 2 ^ 3 := of_decide_eq_true h
    simp only [encode, opcodeOf, Opcode.build, packFields_imm, samplingImm_start (hc.trans (by decide)),
      samplingImm_count (by decide) hc]
  | _ => simp only [encode, opcodeOf, Opcode.build, packFields_rd, packFields_rs1, packFields_rs2]

/-- A word is the packed word of its fields when its reserved bits are 0 (R81). -/
theorem eq_packFields {w : BitVec 32} {op : Byte} {rd rs1 rs2 : Reg} {imm : Byte} (hop : opField w = op)
    (hrd : rdField w = rd) (hrs1 : rs1Field w = rs1) (hrs2 : rs2Field w = rs2) (himm : immField w = imm)
    (hres : w.extractLsb' 28 4 = 0) : w = packFields op rd rs1 rs2 imm :=
  word_eq_of_fields (hop.trans (packFields_op ..).symm) (hrd.trans (packFields_rd ..).symm)
    (hrs1.trans (packFields_rs1 ..).symm) (hrs2.trans (packFields_rs2 ..).symm) (himm.trans (packFields_imm ..).symm)
    (hres.trans (packFields_res ..).symm)

/-- A register field under a mask of ones, as the numeral that a row's mask gives there. -/
theorem reg_and_ones (x : BitVec 4) : x &&& 15#4 = x := BitVec.and_allOnes

/-- A byte under a mask of ones. -/
theorem byte_and_ones (x : Byte) : x &&& 255#8 = x := BitVec.and_allOnes

/-- The command a word gives in a row is encoded as the word's bits that the row leaves free and the row's own bits:
row by row, each field of the mask is the field that `build` reads and `encode` writes (R85). -/
theorem encode_build (w : BitVec 32) (op : Opcode) :
    encode (op.build w) = w &&& ~~~op.mask ||| op.matchWord := by
  symm
  cases op
  -- the left side's fields are to be those that the command is packed from
  all_goals
    simp only [encode, Opcode.build, sinitImm_eq_and, smpiImm_eq_and, smpsImm_eq_and, BitVec.ofNat_toNat,
      BitVec.setWidth_eq]
    apply eq_packFields
  -- in a field the mask is a numeral, so the field is kept, cleared or fixed
  all_goals
    simp [opField, rdField, rs1Field, rs2Field, immField, Opcode.mask, Opcode.matchWord, BitVec.extractLsb'_or,
      BitVec.extractLsb'_and, reg_and_ones, byte_and_ones]

/-- A row's match word has no bit outside its mask (R85). -/
theorem Opcode.matchWord_and_mask (op : Opcode) : op.matchWord &&& op.mask = op.matchWord := by
  cases op <;> decide

/-- The free bits of any word with a row's own bits are a word of the row (R85). -/
theorem Opcode.merge_and_mask (op : Opcode) (w : BitVec 32) :
    (w &&& ~~~op.mask ||| op.matchWord) &&& op.mask = op.matchWord := by
  rw [BitVec.and_or_distrib_right, BitVec.and_assoc, BitVec.not_and_self, matchWord_and_mask]
  simp

/-- The word of a well-formed command is in its opcode's row (R85). -/
theorem encode_and_mask {i : Instr} (h : i.WellFormed) : encode i &&& (opcodeOf i).mask = (opcodeOf i).matchWord := by
  have hmerge := encode_build (encode i) (opcodeOf i)
  rw [build_encode h] at hmerge
  rw [hmerge, Opcode.merge_and_mask]

/-- A word of a row is encoded back from the command it gives there (R85). -/
theorem encode_build_of_row {w : BitVec 32} {op : Opcode} (h : w &&& op.mask = op.matchWord) :
    encode (op.build w) = w := by
  rw [encode_build, ← h, ← BitVec.and_or_distrib_left, BitVec.not_or_self, BitVec.and_allOnes]

/-- The immediate fields a word gives fit (R83). -/
theorem build_wellFormed (w : BitVec 32) (op : Opcode) : (op.build w).WellFormed := by
  cases op with
  | padabs => exact decide_eq_true (immField w).isLt
  | hashf => exact decide_eq_true (immField w).isLt
  | smpi => exact decide_eq_true ((immField w).extractLsb' 0 5).isLt
  | smps => exact decide_eq_true ((immField w).extractLsb' 0 3).isLt
  | _ => rfl

/-! The opcode byte (R84, R86). -/

/-- A word in a row has the row's opcode byte: each mask covers it (R85). -/
theorem opField_of_row {w : BitVec 32} {op : Opcode} (h : w &&& op.mask = op.matchWord) : opField w = op.byte := by
  obtain ⟨hmask, hmatch⟩ := op.row_low
  have hlow := congrArg (BitVec.extractLsb' 0 8) h
  rw [BitVec.extractLsb'_and, hmask, hmatch] at hlow
  exact (byte_and_ones _).symm.trans hlow

theorem Opcode.byte_injective : Function.Injective Opcode.byte := fun op op' h =>
  Option.some.inj (by rw [← op.ofByte_byte, h, op'.ofByte_byte])

/-- The bytes that name no opcode (R84, R86). -/
theorem Opcode.ofByte_eq_none {b : Byte} :
    Opcode.ofByte b = none ↔ 0x0E ≤ b.toNat ∧ b.toNat ≤ 0x1F ∨ 0x28 ≤ b.toNat := by
  simp [Opcode.ofByte, Opcode.all, Opcode.byte, ← BitVec.toNat_inj]
  omega

/-! The three outcomes of `decode` (R86). -/

theorem decode_of_ofByte_none {w : BitVec 32} (h : Opcode.ofByte (opField w) = none) :
    decode w = .error .illegalOpcode := by
  rw [decode, h]

theorem decode_of_byte {w : BitVec 32} {op : Opcode} (h : op.byte = opField w) :
    decode w = if w &&& op.mask = op.matchWord then .ok (op.build w) else .error .reservedField := by
  rw [decode, ← h, op.ofByte_byte]

theorem decode_of_row {w : BitVec 32} {op : Opcode} (h : w &&& op.mask = op.matchWord) :
    decode w = .ok (op.build w) := by
  rw [decode_of_byte (opField_of_row h).symm, if_pos h]

/-- Settles O2: the word is in the command's row, and its fields there are the command's. -/
theorem decodeReadsBackEncode : Obligations.DecodeReadsBackEncode := fun i h => by
  rw [decode_of_row (encode_and_mask h), build_encode h]

/-- Settles O3: a word decodes only in its row, and `encode` writes all of such a word. -/
theorem encodeWritesBackDecode : Obligations.EncodeWritesBackDecode := by
  intro w i h
  obtain ⟨op, -, hrow, rfl⟩ := decode_ok h
  exact ⟨build_wellFormed w op, encode_build_of_row hrow⟩

/-- Settles O4: both rows have the word's opcode byte. -/
theorem opcodeRowsAreDisjoint : Obligations.OpcodeRowsAreDisjoint := fun _ _ _ h h' =>
  Opcode.byte_injective ((opField_of_row h).symm.trans (opField_of_row h'))

/-- Settles O1: fixed words, so both sides compute. -/
theorem specWordsDecode : Obligations.SpecWordsDecode :=
  ⟨rfl, rfl, rfl, rfl, rfl, rfl, rfl, rfl, rfl, rfl, rfl⟩

end Sys2Proof
end

section
/-! The engine's turn with a command latched: the stages in which its word is decoded (R86, R87). -/

namespace Sys2Proof.Machine

open Sys2Proof Sys2Proof.Safety

theorem decodeCmd_of_high {v : Word} (h : v.extractLsb' 32 32 ≠ 0) : decodeCmd v = .error .reservedField := by
  rw [decodeCmd, if_neg h]

theorem decodeCmd_of_low {v : Word} (h : v.extractLsb' 32 32 = 0) : decodeCmd v = decode (v.extractLsb' 0 32) := by
  rw [decodeCmd, if_pos h]

variable {s : State} {v : Word}

/-- When the engine moves next, the step is its turn, whether its event or an empty schedule brings it (R264). -/
theorem step_engineNext (hn : EngineNext s) : step s = engineStep (afterTurn s) := by
  rcases hn with he | he
  · rw [step_idle he, afterTurn, he, List.tail_nil, ← he]
  · obtain ⟨rest, he⟩ := List.head?_eq_some_iff.1 he
    rw [step_event he, runEvent_engine, afterTurn, he, List.tail_cons]

/-- With a command latched, the engine's turn runs its word (R264). -/
theorem step_latched (hb : s.busy = true) (hp : s.pending = some v) (hn : EngineNext s) :
    step s = engineRun v (afterTurn s) :=
  (step_engineNext hn).trans (engineStep_latched (s := afterTurn s) hb hp)

/-- Settles O5: each stage is one outcome of `decodeCmd`, and the step follows it. -/
theorem latchedWordIsDecodedInStages : Obligations.LatchedWordIsDecodedInStages := by
  intro s v hb hp hn
  rw [step_latched hb hp hn]
  refine ⟨fun hhigh => ?_, fun hlow => ⟨fun hrange => ?_, fun hrange => ?_⟩⟩
  · exact engineRun_error (decodeCmd_of_high hhigh)
  · exact engineRun_error ((decodeCmd_of_low hlow).trans (decode_of_ofByte_none (Opcode.ofByte_eq_none.2 hrange)))
  · obtain ⟨row, hrow⟩ := Option.ne_none_iff_exists'.1 (mt Opcode.ofByte_eq_none.1 hrange)
    have hbyte := Opcode.ofByte_eq_some hrow
    have hdecode := (decodeCmd_of_low hlow).trans (decode_of_byte hbyte)
    refine ⟨row, hbyte, fun hout => ?_, fun hin => ?_⟩
    · exact engineRun_error (hdecode.trans (if_neg hout))
    · exact ⟨_, build_wellFormed _ row, encode_build_of_row hin, engineRun_ok (hdecode.trans (if_pos hin))⟩

end Sys2Proof.Machine
end

section
/-! SUPPORT. Montgomery reduction (R100 to R102, R120): its word times 2^64 differs from the input by a
multiple of P. -/

namespace Sys2Proof.Machine

open Sys2Proof

/-- MontRed subtracts one multiple of P from its input and, where the result would be negative, adds another (R101). -/
theorem montRed_mul_radix (x : BitVec 128) :
    ∃ a k : Nat, (montRed x).toNat * 2 ^ 64 + a * Config.P = x.toNat + k * Config.P := by
  obtain ⟨a, ha, hlow, hred⟩ := montRed_toNat x
  simp only [Config.P] at *
  split at hred
  · exact ⟨a, 2 ^ 64, by omega⟩
  · exact ⟨a, 0, by omega⟩

theorem montRed_modEq (x : BitVec 128) : (montRed x).toNat * 2 ^ 64 ≡ x.toNat [MOD Config.P] := by
  obtain ⟨a, k, h⟩ := montRed_mul_radix x
  calc (montRed x).toNat * 2 ^ 64
    _ ≡ (montRed x).toNat * 2 ^ 64 + a * Config.P [MOD Config.P] := (Nat.add_mul_mod_self_right ..).symm
    _ = x.toNat + k * Config.P := h
    _ ≡ x.toNat [MOD Config.P] := Nat.add_mul_mod_self_right ..

theorem montRed_canonical {x : BitVec 128} (hx : x.toNat / 2 ^ 64 < Config.P) : Canonical (montRed x) := by
  obtain ⟨a, -, -, hred⟩ := montRed_toNat x
  rw [Canonical, hred]
  split <;> omega

/-- Settles O20: a multiple of P drops out. -/
theorem montRedIsCongruent : Obligations.MontRedIsCongruent := montRed_modEq

/-- Settles O21: on the example no multiple of P is subtracted, and the high half comes back as it was. -/
theorem montRedRange : Obligations.MontRedRange := ⟨fun _ => montRed_canonical, by decide⟩

/-- The correction of R120: `1 + !p` is -p, so taking it off once adds p. -/
theorem sub_not_mul_borrow (r p : Word) (borrow : Prop) [Decidable borrow] :
    r - (1 + ~~~p) * (if borrow then 1 else 0) = if borrow then r + p else r := by
  have hneg : 1 + ~~~p = -p := by rw [add_comm]; exact (BitVec.neg_eq_not_add p).symm
  split
  · rw [hneg, mul_one, sub_neg_eq_add]
  · rw [mul_zero, sub_zero]

/-- Settles O22: both forms share everything up to the correction. -/
theorem borrowFormsAgree : Obligations.BorrowFormsAgree := ⟨fun _ => sub_not_mul_borrow _ _ _, by decide⟩

end Sys2Proof.Machine
end

section
/-! SUPPORT. What the field operations do to values: each is its operation modulo P, on all words. -/

namespace Sys2Proof.Safety

open Sys2Proof Sys2Proof.Machine

/-- 2^64 is invertible modulo P. -/
theorem modEq_of_mul_radix {m n : Nat} (h : m * 2 ^ 64 ≡ n * 2 ^ 64 [MOD Config.P]) : m ≡ n [MOD Config.P] :=
  Nat.ModEq.cancel_right_of_coprime (by decide) h

/-- A word congruent to v · 2^64 stands for v mod P, as `mont v` does (R10). -/
theorem value_eq_of_modEq {w : Word} {v : Nat} (h : w.toNat ≡ v * 2 ^ 64 [MOD Config.P]) :
    value w = v % Config.P := by
  rw [← value_mont v]
  refine Nat.ModEq.mul_right _ ?_
  rw [mont_toNat]
  exact h.trans (Nat.mod_modEq _ _).symm

/-- Canonical words of one value are one word (R10). -/
theorem eq_of_value_eq {a b : Word} (ha : Canonical a) (hb : Canonical b) (h : value a = value b) : a = b := by
  rw [← mont_value ha, h, mont_value hb]

@[simp] theorem value_zero : value 0 = 0 := by decide
@[simp] theorem value_ONE : value Config.ONE = 1 := by decide

/-! The multiplier (R103, R107, R108). -/

theorem fmul_modEq (a b : Word) : (fmul a b).toNat * 2 ^ 64 ≡ a.toNat * b.toNat [MOD Config.P] := by
  simpa only [fmul, mulWide_toNat] using montRed_modEq (mulWide a b)

/-- One canonical factor is enough: the high half of the product is below it. -/
theorem fmul_canonical (a : Word) {b : Word} (hb : Canonical b) : Canonical (fmul a b) := by
  refine montRed_canonical (Nat.div_lt_of_lt_mul ?_)
  rw [mulWide_toNat]
  exact Nat.mul_lt_mul'' a.isLt hb

theorem value_fmul (a b : Word) : value (fmul a b) = value a * value b % Config.P := by
  refine value_eq_of_modEq (modEq_of_mul_radix ?_)
  calc (fmul a b).toNat * 2 ^ 64
    _ ≡ a.toNat * b.toNat [MOD Config.P] := fmul_modEq a b
    _ ≡ value a * 2 ^ 64 * (value b * 2 ^ 64) [MOD Config.P] :=
      ((value_mul_radix_modEq a).mul (value_mul_radix_modEq b)).symm
    _ = value a * value b * 2 ^ 64 * 2 ^ 64 := by ring

theorem toMont_canonical (v : Word) : Canonical (toMont v) := fmul_canonical v (by decide)

/-- R2 stands for 2^64, so the product with it takes the place of the word's own factor 2^-64. -/
theorem value_toMont (v : Word) : value (toMont v) = v.toNat % Config.P :=
  calc value (toMont v)
    _ = value v * value Config.R2 % Config.P := value_fmul v Config.R2
    _ = value v * (2 ^ 64 % Config.P) % Config.P := by rw [show value Config.R2 = 2 ^ 64 % Config.P by decide]
    _ = value v * 2 ^ 64 % Config.P := Nat.mul_mod_mod _ _ _
    _ = v.toNat % Config.P := value_mul_radix_modEq v

theorem toMont_eq_mont (v : Word) : toMont v = mont (v.toNat % Config.P) := by
  rw [← value_toMont, mont_value (toMont_canonical v)]

theorem canon_canonical (w : Word) : Canonical (canon w) := by
  refine montRed_canonical ?_
  rw [BitVec.toNat_setWidth_of_le (by decide), Nat.div_eq_of_lt w.isLt]
  decide

/-- `canon` computes the value of any word (R108). -/
theorem canon_toNat (w : Word) : (canon w).toNat = value w := by
  refine Nat.ModEq.eq_of_lt_of_lt (modEq_of_mul_radix ?_) (canon_canonical w) (value_lt w)
  calc (canon w).toNat * 2 ^ 64
    _ ≡ (w.setWidth 128).toNat [MOD Config.P] := montRed_modEq _
    _ = w.toNat := BitVec.toNat_setWidth_of_le (by decide)
    _ ≡ value w * 2 ^ 64 [MOD Config.P] := (value_mul_radix_modEq w).symm

/-! The adder (R104 to R106). -/

theorem value_fadd (a b : Word) : value (fadd a b) = (value a + value b) % Config.P := by
  refine value_eq_of_modEq ?_
  rw [fadd_toNat, add_mul]
  exact (Nat.mod_modEq _ _).trans ((value_mul_radix_modEq a).add (value_mul_radix_modEq b)).symm

theorem fsub_toNat_of_canonical (a : Word) {b : Word} (hb : Canonical b) :
    (fsub a b).toNat = (a.toNat + (Config.P - b.toNat)) % Config.P := by
  have h := fsub_toNat a b
  simp only [Canonical, Config.P] at *
  omega

theorem fneg_toNat_of_canonical {a : Word} (ha : Canonical a) :
    (fneg a).toNat = (Config.P - a.toNat) % Config.P := by
  have h := fneg_toNat a
  simp only [Canonical, Config.P] at *
  omega

theorem fadd_fsub_cancel {a : Word} (ha : Canonical a) (b : Word) : fadd (fsub a b) b = a := by
  apply BitVec.eq_of_toNat_eq
  have h := fsub_toNat a b
  rw [fadd_toNat]
  simp only [Canonical, Config.P] at *
  omega

theorem fadd_fneg_cancel (a : Word) : fadd (fneg a) a = 0 := by
  apply BitVec.eq_of_toNat_eq
  have h := fneg_toNat a
  rw [fadd_toNat]
  change _ = 0
  simp only [Config.P] at *
  omega

/-! Exponentiation (R113). -/

theorem powLoop_canonical {a : Word} (ha : Canonical a) (e : Word) (k : Nat) {acc : Word} (hacc : Canonical acc) :
    Canonical (powLoop a e k acc) := by
  induction k generalizing acc with
  | zero => exact hacc
  | succ k ih =>
    rw [powLoop_succ]
    apply ih
    split
    · exact fmul_canonical _ ha
    · exact fmul_canonical _ hacc

theorem fpow_canonical {a : Word} (ha : Canonical a) (e : Word) : Canonical (fpow a e) :=
  powLoop_canonical ha e 64 (by decide)

/-- One turn of the loop of R113: square, and multiply where the bit is 1. -/
theorem value_powTurn_modEq (a acc : Word) (bit : Bool) :
    value (if bit then fmul (fmul acc acc) a else fmul acc acc) ≡
      value acc ^ 2 * value a ^ bit.toNat [MOD Config.P] := by
  have hsq : value (fmul acc acc) ≡ value acc ^ 2 [MOD Config.P] := by
    rw [value_fmul, sq]
    exact Nat.mod_modEq _ _
  cases bit
  · simpa using hsq
  · rw [if_pos rfl, value_fmul, Bool.toNat_true, pow_one]
    exact (Nat.mod_modEq _ _).trans (hsq.mul_right _)

/-- The loop of R113 over the low `k` bits of the exponent. -/
theorem value_powLoop_modEq (a e : Word) (k : Nat) (acc : Word) :
    value (powLoop a e k acc) ≡ value acc ^ 2 ^ k * value a ^ (e.toNat % 2 ^ k) [MOD Config.P] := by
  induction k generalizing acc with
  | zero => simp [Nat.mod_one, Nat.ModEq.refl]
  | succ k ih =>
    rw [powLoop_succ]
    calc value (powLoop a e k (if e.getLsbD k then fmul (fmul acc acc) a else fmul acc acc))
      _ ≡ _ ^ 2 ^ k * value a ^ (e.toNat % 2 ^ k) [MOD Config.P] := ih _
      _ ≡ (value acc ^ 2 * value a ^ (e.getLsbD k).toNat) ^ 2 ^ k * value a ^ (e.toNat % 2 ^ k) [MOD Config.P] :=
        ((value_powTurn_modEq a acc _).pow _).mul_right _
      _ = value acc ^ 2 ^ (k + 1) * value a ^ (e.toNat % 2 ^ (k + 1)) := by
        rw [Nat.mod_pow_succ, ← Nat.toNat_testBit, BitVec.testBit_toNat]
        ring

theorem value_powLoop_ONE (a e : Word) (k : Nat) :
    value (powLoop a e k Config.ONE) = value a ^ (e.toNat % 2 ^ k) % Config.P := by
  have h := value_powLoop_modEq a e k Config.ONE
  rw [value_ONE, one_pow, one_mul] at h
  exact (Nat.mod_eq_of_lt (value_lt _)).symm.trans h

theorem value_fpow (a e : Word) : value (fpow a e) = value a ^ e.toNat % Config.P := by
  rw [fpow, value_powLoop_ONE, Nat.mod_eq_of_lt e.isLt]

end Sys2Proof.Safety
end

section
/-! SUPPORT. The inverse (R114): P is prime, so by Fermat the power P - 2 of a value that is not 0 is its inverse. -/

namespace Sys2Proof.Safety

open Sys2Proof Sys2Proof.Machine

theorem prime_dvd_P_sub_one {q : Nat} (hq : q.Prime) (h : q ∣ Config.P - 1) :
    q = 2 ∨ q = 3 ∨ q = 5 ∨ q = 17 ∨ q = 257 ∨ q = 65537 := by
  have dvd_iff {r : Nat} (hr : r.Prime) : q ∣ r ↔ q = r := Nat.prime_dvd_prime_iff_eq hq hr
  rw [show Config.P - 1 = 2 ^ 32 * 3 * 5 * 17 * 257 * 65537 by decide] at h
  simpa only [hq.dvd_mul, hq.prime.dvd_pow_iff_dvd (by decide : 32 ≠ 0), or_assoc, dvd_iff Nat.prime_two,
    dvd_iff Nat.prime_three, dvd_iff Nat.prime_five, dvd_iff (by norm_num : Nat.Prime 17),
    dvd_iff (by norm_num : Nat.Prime 257), dvd_iff (by norm_num : Nat.Prime 65537)] using h

/-- P is prime: 7 has the order P - 1 modulo P (Lucas' criterion). -/
theorem prime_P : Nat.Prime Config.P := by
  refine lucas_primality Config.P 7 (by reduce_mod_char) fun q hq hdvd => ?_
  rcases prime_dvd_P_sub_one hq hdvd with rfl | rfl | rfl | rfl | rfl | rfl <;> (reduce_mod_char; decide)

/-- Fermat's inverse: the power p - 2. -/
theorem mul_pow_sub_two_modEq_one {p v : Nat} (hp : p.Prime) (hv : v.Coprime p) : v * v ^ (p - 2) ≡ 1 [MOD p] := by
  have h := Nat.ModEq.pow_totient hv
  rwa [Nat.totient_prime hp, show p - 1 = p - 2 + 1 by have := hp.two_le; omega, pow_succ'] at h

theorem value_coprime_P {a : Word} (ha : Canonical a) (h0 : a ≠ 0) : (value a).Coprime Config.P := by
  refine (Nat.coprime_of_lt_prime (fun h => h0 ?_) (value_lt a) prime_P).symm
  exact eq_of_value_eq ha (by decide) (h.trans value_zero.symm)

theorem finv_canonical {a : Word} (ha : Canonical a) : Canonical (finv a) := fpow_canonical ha _

theorem value_finv (a : Word) : value (finv a) = value a ^ (Config.P - 2) % Config.P := value_fpow a _

theorem value_mul_value_finv {a : Word} (ha : Canonical a) (h0 : a ≠ 0) :
    value a * value (finv a) % Config.P = 1 := by
  rw [value_finv, Nat.mul_mod_mod]
  exact mul_pow_sub_two_modEq_one prime_P (value_coprime_P ha h0)

theorem fmul_finv {a : Word} (ha : Canonical a) (h0 : a ≠ 0) : fmul a (finv a) = Config.ONE := by
  refine eq_of_value_eq (fmul_canonical a (finv_canonical ha)) (by decide) ?_
  rw [value_fmul, value_mul_value_finv ha h0, value_ONE]

end Sys2Proof.Safety
end

section
/-! The field arithmetic unit (R104 to R118): each command's result on canonical operands, and
the canonicity check; and NOP and PERM (R119, R151). -/

namespace Sys2Proof.Safety

open Sys2Proof Sys2Proof.Machine

/-- Settles O23: the product of two Montgomery words has one factor 2^64 too many, and MontRed takes it off. -/
theorem montgomeryProduct : Obligations.MontgomeryProduct := fun a b _ hb => ⟨fmul_canonical a hb, value_fmul a b⟩

/-- Settles O25: adding b back to a - b gives a, and a to -a gives 0, so the values follow from the sum's. -/
theorem adderResults : Obligations.AdderResults := by
  intro rd rs1 rs2 s
  rw [exec_fadd, exec_fsub, exec_fneg]
  refine ⟨fun h1 h2 => ⟨?_, ?_⟩, fun h1 => ?_, fun h => ⟨withFields_error h, withFields_error h⟩,
    withField_error⟩
  · exact ⟨_, withFields_ok h1 h2, fadd_toNat _ _, value_fadd _ _⟩
  · exact ⟨_, withFields_ok h1 h2, fsub_toNat_of_canonical _ h2, by rw [← value_fadd, fadd_fsub_cancel h1]⟩
  · exact ⟨_, withField_ok h1, fneg_toNat_of_canonical h1, by rw [← value_fadd, fadd_fneg_cancel, value_zero]⟩

/-- Settles O26: FSQR is the product of the operand with itself, and the rest is the product's own. -/
theorem multiplierResults : Obligations.MultiplierResults := by
  intro rd rs1 rs2 s
  rw [exec_fmul, exec_fsqr, exec_fmul]
  refine ⟨fun h1 h2 => ?_, fun h1 => ?_, withFields_error, withField_error⟩
  · exact ⟨_, withFields_ok h1 h2, fmul_canonical _ h2, fmul_modEq _ _, value_fmul _ _⟩
  · rw [sq, sq]
    exact ⟨_, withField_ok h1, fmul_canonical _ h1, fmul_modEq _ _, value_fmul _ _, withFields_ok h1 h1⟩

/-- Settles O27: the high half of the joined word is FR[rs1]. -/
theorem rawReductionResult : Obligations.RawReductionResult := by
  intro rd rs1 rs2 s
  refine ⟨_, exec_fredc s rd rs1 rs2, rfl, ?_, fun hhi => montRed_canonical ?_⟩
  · rw [← joinWide_toNat]
    exact montRed_modEq _
  · rw [joinWide_toNat, mul_comm, Nat.mul_add_div (by decide), Nat.div_eq_of_lt (BitVec.isLt _)]
    exact hhi

/-- Settles O28: MontRed of v · R2 is the Montgomery word of v, and MontRed of a word its value. -/
theorem conversionResults : Obligations.ConversionResults := by
  intro rd rs1 s
  rw [exec_fcan]
  exact ⟨⟨_, exec_ftom s rd rs1, toMont_eq_mont _, toMont_canonical _, value_toMont _⟩,
    fun h1 => ⟨_, withField_ok h1, canon_toNat _⟩, withField_error⟩

/-- Settles O29: the loop over all 64 bits, from ONE, gives the power. -/
theorem powerResult : Obligations.PowerResult := by
  intro rd rs1 rs2 s
  rw [exec_fpow]
  exact ⟨fun h1 => ⟨_, withField_ok h1, fpow_canonical h1 _, value_fpow _ _⟩, withField_error⟩

/-- Settles O30: P is prime, so the power P - 2 is the inverse. -/
theorem inverseResult : Obligations.InverseResult := by
  intro rd rs1 s
  rw [exec_finv]
  refine ⟨fun h1 h0 => ?_, fun h0 => ?_, withField_error⟩
  · refine ⟨finv s.fr[rs1], ?_, finv_canonical h1, value_finv _, value_mul_value_finv h1 h0, fmul_finv h1 h0⟩
    rw [withField_ok h1, if_neg h0]
  · rw [withField_ok (by rw [h0]; decide), if_pos h0]

theorem cmpEq_eq_decide (a b : Word) : cmpEq a b = decide (a = b) := beq_eq_decide a b

theorem cmpLt_eq_decide (a b : Word) : cmpLt a b = decide (value a < value b) := by
  simp only [cmpLt, BitVec.lt_def, canon_toNat]

theorem cmpGt_eq_decide (a b : Word) : cmpGt a b = decide (value b < value a) := cmpLt_eq_decide b a

/-- Settles O31: FLT and FGT compare what `canon` computes, and equal values are equal words. -/
theorem compareResults : Obligations.CompareResults := by
  intro rs1 rs2 s
  rw [exec_feq, exec_flt, exec_fgt]
  refine ⟨fun h1 h2 => ⟨?_, ⟨congrArg value, eq_of_value_eq h1 h2⟩, ?_, ?_⟩,
    fun h => ⟨withFields_error h, withFields_error h, withFields_error h⟩⟩
  · rw [withFields_ok h1 h2, cmpEq_eq_decide, State.setCmp]
  · rw [withFields_ok h1 h2, cmpLt_eq_decide, State.setCmp]
  · rw [withFields_ok h1 h2, cmpGt_eq_decide, State.setCmp]

/-- Settles O38: the two equations of the commands. -/
theorem nopAndPermResults : Obligations.NopAndPermResults := fun s =>
  ⟨exec_nop s, by rw [exec_perm, State.flush, State.setSponge]⟩

end Sys2Proof.Safety
end

section
/-! SUPPORT. Split-and-lookup (R143 to R145): the bytes of a word, a canonical word seen from its bytes, and what an S-box
with the fixed points 0 and 255 does to them. -/

namespace Sys2Proof.Machine

open Sys2Proof

theorem wordByte_wordOfBytes (b : Fin 8 → Byte) (k : Fin 8) : wordByte (wordOfBytes b) k.val = b k := by
  have lt (k : Fin 8) := (b k).isLt
  have := lt 0; have := lt 1; have := lt 2; have := lt 3; have := lt 4; have := lt 5; have := lt 6; have := lt 7
  apply BitVec.eq_of_toNat_eq
  rw [wordByte_toNat, wordOfBytes, BitVec.toNat_ofNat]
  fin_cases k <;> simp only [Fin.reduceFinMk, Nat.reduceMul, Nat.reducePow] <;> omega

/-- A word is determined by its bytes. -/
theorem eq_of_wordByte_eq {w w' : Word} (h : ∀ k : Fin 8, wordByte w k.val = wordByte w' k.val) : w = w' := by
  rw [← wordOfBytes_wordByte w, ← wordOfBytes_wordByte w', funext h]

/-- P is FFFFFFFF00000001 in hexadecimal: a word is below it exactly when its high half is not all ones or its low half
is 0 (R145). -/
theorem canonical_iff_wordByte (w : Word) :
    Canonical w ↔
      ¬ (wordByte w 4 = 0xFF ∧ wordByte w 5 = 0xFF ∧ wordByte w 6 = 0xFF ∧ wordByte w 7 = 0xFF) ∨
        (wordByte w 0 = 0 ∧ wordByte w 1 = 0 ∧ wordByte w 2 = 0 ∧ wordByte w 3 = 0) := by
  have hw : w.toNat < 2 ^ 64 := w.isLt
  simp only [Canonical, Config.P, BitVec.toNat_eq, wordByte_toNat, BitVec.ofNat_eq_ofNat, BitVec.toNat_ofNat,
    Nat.reduceMul, Nat.reducePow]
  omega

variable {T : Tables}

theorem wordByte_splitLookup (T : Tables) (w : Word) {k : Nat} (hk : k < 8) :
    wordByte (splitLookup T w) k = T.sbox (wordByte w k) :=
  wordByte_wordOfBytes _ ⟨k, hk⟩

/-- Only 0 goes to 0 and only 255 to 255, so the bytes decide alike before and after (R145). -/
theorem canonical_splitLookup_iff (hT : T.Valid) (w : Word) : Canonical (splitLookup T w) ↔ Canonical w := by
  have h0 (b : Byte) : T.sbox b = 0 ↔ b = 0 := hT.sbox_bijective.injective.eq_iff' hT.sbox_zero
  have hFF (b : Byte) : T.sbox b = 0xFF ↔ b = 0xFF := hT.sbox_bijective.injective.eq_iff' hT.sbox_ff
  simp (disch := decide) only [canonical_iff_wordByte, wordByte_splitLookup, h0, hFF]

theorem splitLookup_injective (hT : T.Valid) : Function.Injective (splitLookup T) := by
  refine fun w w' h => eq_of_wordByte_eq fun k => hT.sbox_bijective.injective ?_
  rw [← wordByte_splitLookup T w k.isLt, ← wordByte_splitLookup T w' k.isLt, h]

theorem splitLookup_surjective (hT : T.Valid) : Function.Surjective (splitLookup T) := by
  intro w
  choose b hb using fun k : Fin 8 => hT.sbox_bijective.surjective (wordByte w k.val)
  exact ⟨wordOfBytes b, eq_of_wordByte_eq fun k => by
    rw [wordByte_splitLookup T _ k.isLt, wordByte_wordOfBytes, hb]⟩

theorem splitLookup_bijOn (hT : T.Valid) : Set.BijOn (splitLookup T) {w | Canonical w} {w | Canonical w} := by
  refine ⟨fun w => (canonical_splitLookup_iff hT w).2, (splitLookup_injective hT).injOn, fun w hw => ?_⟩
  obtain ⟨w', rfl⟩ := splitLookup_surjective hT w
  exact ⟨w', (canonical_splitLookup_iff hT w').1 hw, rfl⟩

/-- Settles O33: each byte goes through an S-box that is a bijection. -/
theorem splitLookupIsABijection : Obligations.SplitLookupIsABijection := by
  refine ⟨fun T w k => wordByte_splitLookup T w k.isLt, fun T hT => ?_⟩
  obtain ⟨hmaps, -, hsurj⟩ := splitLookup_bijOn hT
  exact ⟨hmaps, fun _ _ h => splitLookup_injective hT h, hsurj⟩

/-! The machine's own S-box (R144). -/

theorem sbox_inner_toNat {x : Byte} (h : 1 ≤ x.toNat ∧ x.toNat ≤ 254) :
    (Config.sbox x).toNat = (Config.sboxInner ⟨x.toNat - 1, by omega⟩).val + 1 := by
  rw [Config.sbox, dif_pos h, BitVec.toNat_ofNat]
  omega

theorem sbox_outer {x : Byte} (h : ¬ (1 ≤ x.toNat ∧ x.toNat ≤ 254)) : Config.sbox x = x := dif_neg h

/-- The bytes 1 to 254 stay among themselves, and 0 and 255 where they are. -/
theorem sbox_inner_iff (x : Byte) :
    (1 ≤ (Config.sbox x).toNat ∧ (Config.sbox x).toNat ≤ 254) ↔ 1 ≤ x.toNat ∧ x.toNat ≤ 254 := by
  by_cases h : 1 ≤ x.toNat ∧ x.toNat ≤ 254
  · have := sbox_inner_toNat h
    omega
  · rw [sbox_outer h]

theorem sbox_injective : Function.Injective Config.sbox := by
  intro x y hxy
  have hiff := sbox_inner_iff x
  rw [hxy, sbox_inner_iff y] at hiff
  by_cases hx : 1 ≤ x.toNat ∧ x.toNat ≤ 254
  · have hy := hiff.2 hx
    have h := congrArg BitVec.toNat hxy
    rw [sbox_inner_toNat hx, sbox_inner_toNat hy, Nat.add_right_cancel_iff, Fin.val_inj,
      Config.sboxInner.apply_eq_iff_eq, Fin.mk.injEq] at h
    exact BitVec.eq_of_toNat_eq (by omega)
  · rwa [sbox_outer hx, sbox_outer (mt hiff.1 hx)] at hxy

/-- Settles O32: on a finite set an injective S-box is bijective, and 0 and 255 lie outside the permuted bytes. -/
theorem machineTablesAreValid : Obligations.MachineTablesAreValid where
  sbox_bijective := Finite.injective_iff_bijective.1 sbox_injective
  sbox_zero := sbox_outer (x := 0x00) (by decide)
  sbox_ff := sbox_outer (x := 0xFF) (by decide)
  rc_lt k := (Config.rc k).isLt

end Sys2Proof.Machine
end

section
/-! SUPPORT. The power map (R146): with an exponent that undoes the seventh power on values, FPOW is its inverse. -/

namespace Sys2Proof.Safety

open Sys2Proof Sys2Proof.Machine

theorem powerMap_canonical {w : Word} (hw : Canonical w) : Canonical (powerMap w) :=
  fmul_canonical _ (fmul_canonical _ (fmul_canonical _ hw))

theorem value_powerMap (w : Word) : value (powerMap w) = value w ^ 7 % Config.P := by
  simp only [powerMap, value_fmul, Nat.mul_mod_mod, Nat.mod_mul_mod]
  congr 1
  ring

/-- The inverse of 7 modulo P - 1, (4 (P - 1) + 1) / 7. -/
def seventhRootExponent : Word := 10540996611094048183

/-- The canonical word whose seventh power a canonical word is. -/
def seventhRoot (w : Word) : Word := fpow w seventhRootExponent

/-- By Fermat, powers whose exponents differ by a multiple of P - 1 agree, and 7 times the exponent is 4 (P - 1) + 1. -/
theorem pow_seven_mul_seventhRootExponent (v : Nat) :
    v ^ (7 * seventhRootExponent.toNat) ≡ v [MOD Config.P] := by
  have h := Int.ModEq.pow_eq_pow (x := 7 * seventhRootExponent.toNat) (y := 1) prime_P (by decide) (by decide)
    (by decide) (v : Int)
  rw [pow_one] at h
  exact_mod_cast h

theorem seventhRoot_canonical {w : Word} (hw : Canonical w) : Canonical (seventhRoot w) := fpow_canonical hw _

theorem seventhRoot_powerMap {w : Word} (hw : Canonical w) : seventhRoot (powerMap w) = w := by
  refine eq_of_value_eq (seventhRoot_canonical (powerMap_canonical hw)) hw ?_
  rw [seventhRoot, value_fpow, value_powerMap, ← Nat.pow_mod, ← pow_mul]
  exact (pow_seven_mul_seventhRootExponent _).trans (Nat.mod_eq_of_lt (value_lt w))

theorem powerMap_seventhRoot {w : Word} (hw : Canonical w) : powerMap (seventhRoot w) = w := by
  refine eq_of_value_eq (powerMap_canonical (seventhRoot_canonical hw)) hw ?_
  rw [value_powerMap, seventhRoot, value_fpow, ← Nat.pow_mod, ← pow_mul, mul_comm]
  exact (pow_seven_mul_seventhRootExponent _).trans (Nat.mod_eq_of_lt (value_lt w))

theorem powerMap_bijOn : Set.BijOn powerMap {w | Canonical w} {w | Canonical w} :=
  Set.InvOn.bijOn ⟨fun _ => seventhRoot_powerMap, fun _ => powerMap_seventhRoot⟩ (fun _ => powerMap_canonical)
    fun _ => seventhRoot_canonical

/-- Settles O34: the seventh root undoes the power map. -/
theorem powerMapIsTheSeventhPower : Obligations.PowerMapIsTheSeventhPower :=
  ⟨fun w hw => ⟨powerMap_canonical hw, value_powerMap w⟩, fun _ _ hw hw' h => powerMap_bijOn.injOn hw hw' h,
    powerMap_bijOn.surjOn⟩

end Sys2Proof.Safety
end

section
/-! SUPPORT. The diffusion layer (R147, R148): its exact sums, on words, on values and on 32-bit halves. -/

namespace Sys2Proof.Safety

open Sys2Proof Sys2Proof.Machine

theorem mdsLayer_canonical (T : Tables) (u : Sponge) : SpongeCanonical (mdsLayer T u) := by
  intro i
  rw [Canonical, mdsLayer_toNat]
  exact Nat.mod_lt _ (by decide)

/-- Every word of the sum is its value times 2^64, so the sum of the words is the sum of the values times 2^64. -/
theorem value_mdsLayer (T : Tables) (u : Sponge) (i : Fin 16) :
    value (mdsLayer T u)[i] = (∑ j : Fin 16, T.mdsCol (i - j) * value u[j]) % Config.P := by
  refine value_eq_of_modEq ?_
  rw [mdsLayer_toNat, mdsSum_eq_sum]
  refine (Nat.mod_modEq _ _).trans ?_
  simp only [Finset.sum_mul, mul_assoc]
  exact Nat.ModEq.sum fun j _ => ((value_mul_radix_modEq u[j]).mul_left _).symm

/-- Settles O35: the sum is exact until its one reduction. -/
theorem mdsLayerIsTheCirculantProduct : Obligations.MdsLayerIsTheCirculantProduct := by
  intro T u i
  refine ⟨?_, value_mdsLayer T u i⟩
  rw [mdsLayer_toNat, mdsSum_eq_sum]

theorem mdsHalfSum_eq_sum (T : Tables) (u : Sponge) (half : Word → Nat) (i : Fin 16) :
    mdsHalfSum T u half i = ∑ j : Fin 16, T.mdsCol (i - j) * half u[j] := by
  rw [mdsHalfSum, ← List.ofFn_eq_map, List.sum_ofFn]

theorem halves_toNat (w : Word) :
    (w.extractLsb' 0 32).toNat + (w.extractLsb' 32 32).toNat * 2 ^ 32 = w.toNat := by
  have hw := w.isLt
  simp only [BitVec.extractLsb'_toNat, Nat.shiftRight_eq_div_pow]
  omega

/-- The exact sum is linear, so the halves may be recombined after it (R148). -/
theorem mdsHalfSum_recombine (T : Tables) (u : Sponge) (i : Fin 16) :
    mdsHalfSum T u (fun w => (w.extractLsb' 0 32).toNat) i +
      mdsHalfSum T u (fun w => (w.extractLsb' 32 32).toNat) i * 2 ^ 32 = mdsSum T u i := by
  simp only [mdsHalfSum_eq_sum, mdsSum_eq_sum, Finset.sum_mul, mul_assoc, ← Finset.sum_add_distrib, ← mul_add,
    halves_toNat]

/-- Settles O36: at each position the recombined sum is the sum of R147. -/
theorem mdsByHalvesAgrees : Obligations.MdsByHalvesAgrees :=
  ⟨fun T u => by simp only [mdsLayerByHalves, mdsHalfSum_recombine, mdsLayer], by decide⟩

end Sys2Proof.Safety
end

section
/-! The rounds of Tip5 (R140 to R142, R152): what a round computes at each position, and when it takes no two canonical
states to one. -/

namespace Sys2Proof.Safety

open Sys2Proof Sys2Proof.Machine

variable {T : Tables}

theorem tip5Round_toNat (T : Tables) (s : Sponge) (r : Fin 5) (i : Fin 16) :
    ((tip5Round T s r)[i]).toNat =
      (mdsSum T (sboxLayer T s) i + roundConstant T r i * 2 ^ 64) % Config.P := by
  rw [tip5Round, addConstants_get, fadd_toNat, mdsLayer_toNat, mont_toNat, ← Nat.add_mod]

/-- Settles O60: the sum of the layer and the constant's Montgomery word are reduced together. -/
theorem tip5IsFiveRounds : Obligations.Tip5IsFiveRounds := by
  intro T s
  refine ⟨tip5_eq T s, fun r i => ?_⟩
  rw [tip5Round_toNat, mdsSum_eq_sum, roundConstant]
  simp only [sboxLayer_get]

/-- A state is determined by its sixteen words. -/
theorem sponge_ext {s s' : Sponge} (h : ∀ i : Fin 16, s[i] = s'[i]) : s = s' :=
  Vector.ext fun i hi => h ⟨i, hi⟩

/-- Each position goes through a bijection of the canonical words (R142, R145, R146). -/
theorem sboxLayer_bijOn (hT : T.Valid) :
    Set.BijOn (sboxLayer T) {s | SpongeCanonical s} {s | SpongeCanonical s} := by
  have hword (i : Fin 16) :
      Set.BijOn (fun w => if i.val < 4 then splitLookup T w else powerMap w) {w | Canonical w} {w | Canonical w} := by
    by_cases hi : i.val < 4
    · simpa only [hi, if_true] using splitLookup_bijOn hT
    · simpa only [hi, if_false] using powerMap_bijOn
  refine ⟨fun s hs i => ?_, fun s hs s' hs' h => sponge_ext fun i => (hword i).injOn (hs i) (hs' i) ?_, fun u hu => ?_⟩
  · rw [sboxLayer_get]
    exact (hword i).mapsTo (hs i)
  · simpa only [sboxLayer_get] using congrArg (fun t : Sponge => t[i]) h
  · choose w hw hwu using fun i : Fin 16 => (hword i).surjOn (hu i)
    refine ⟨Vector.ofFn w, fun i => ?_, sponge_ext fun i => ?_⟩
    · simpa using hw i
    · rw [sboxLayer_get]
      simpa using hwu i

theorem fadd_right_cancel {a b c : Word} (ha : Canonical a) (hb : Canonical b) (h : fadd a c = fadd b c) : a = b := by
  have hsum : a.toNat + c.toNat ≡ b.toNat + c.toNat [MOD Config.P] := by
    rw [Nat.ModEq, ← fadd_toNat, ← fadd_toNat, h]
  exact BitVec.eq_of_toNat_eq (Nat.ModEq.eq_of_lt_of_lt (Nat.ModEq.add_right_cancel' _ hsum) ha hb)

theorem addConstants_injOn (T : Tables) (r : Fin 5) : Set.InjOn (addConstants T r) {s | SpongeCanonical s} := by
  refine fun v hv v' hv' h => sponge_ext fun i => fadd_right_cancel (hv i) (hv' i) (c := mont (roundConstant T r i)) ?_
  rw [← addConstants_get, ← addConstants_get, h]

/-- Of the three layers only the diffusion layer can take two canonical states to one. -/
theorem tip5Round_injOn_iff (hT : T.Valid) (r : Fin 5) :
    Set.InjOn (tip5Round T · r) {s | SpongeCanonical s} ↔ Set.InjOn (mdsLayer T) {s | SpongeCanonical s} := by
  have hsbox := sboxLayer_bijOn hT
  have hround : (tip5Round T · r) = addConstants T r ∘ mdsLayer T ∘ sboxLayer T := rfl
  calc Set.InjOn (tip5Round T · r) {s | SpongeCanonical s}
    _ ↔ Set.InjOn (mdsLayer T ∘ sboxLayer T) {s | SpongeCanonical s} := by
      rw [hround]
      exact ⟨Set.InjOn.of_comp, fun h => (addConstants_injOn T r).comp h fun _ _ => mdsLayer_canonical T _⟩
    _ ↔ Set.InjOn (mdsLayer T) {s | SpongeCanonical s} := by rw [hsbox.injOn.comp_iff, hsbox.image_eq]

theorem tip5Round_canonical (T : Tables) (s : Sponge) (r : Fin 5) : SpongeCanonical (tip5Round T s r) := by
  intro i
  rw [tip5Round, addConstants_get]
  exact fadd_canonical _ _

theorem foldl_tip5Round_injOn (h : ∀ r, Set.InjOn (tip5Round T · r) {s | SpongeCanonical s}) (rounds : List (Fin 5)) :
    Set.InjOn (rounds.foldl (tip5Round T)) {s | SpongeCanonical s} := by
  induction rounds with
  | nil => exact Set.injOn_id _
  | cons r rounds ih => exact ih.comp (h r) fun s _ => tip5Round_canonical T s r

/-- If Tip5 takes no two canonical states to one, neither does its first round. -/
theorem tip5_injOn_iff (hT : T.Valid) :
    Set.InjOn (tip5 T) {s | SpongeCanonical s} ↔ Set.InjOn (mdsLayer T) {s | SpongeCanonical s} := by
  constructor
  · intro h
    have hcomp : Set.InjOn (([1, 2, 3, 4] : List (Fin 5)).foldl (tip5Round T) ∘ (tip5Round T · 0))
        {s | SpongeCanonical s} := h
    exact (tip5Round_injOn_iff hT 0).1 hcomp.of_comp
  · exact fun h => foldl_tip5Round_injOn (fun r => (tip5Round_injOn_iff hT r).2 h) [0, 1, 2, 3, 4]

theorem injOn_canonical_iff {f : Sponge → Sponge} : Set.InjOn f {s | SpongeCanonical s} ↔
    ∀ s s' : Sponge, SpongeCanonical s → SpongeCanonical s' → f s = f s' → s = s' :=
  ⟨fun h _ _ hs hs' => h hs hs', fun h _ hs _ hs' => h _ _ hs hs'⟩

/-- Settles O37: both halves of the equivalence go round by round. -/
theorem tip5IsInjectiveIffTheMdsLayerIs : Obligations.Tip5IsInjectiveIffTheMdsLayerIs := by
  refine fun T hT => ⟨tip5_canonical T, ?_⟩
  rw [← injOn_canonical_iff, ← injOn_canonical_iff]
  exact tip5_injOn_iff hT

end Sys2Proof.Safety
end

section
/-! SUPPORT. The sponge primitives position by position: a block added to a rate (R172), the blocks of PADABS and HASHF
(R176, R178), and a rate written to the first registers (R175, R178). -/

namespace Sys2Proof.Machine

open Sys2Proof

theorem zero_fadd {b : Word} (hb : Canonical b) : fadd 0 b = b := by
  apply BitVec.eq_of_toNat_eq
  calc (fadd 0 b).toNat
    _ = (0 + b.toNat) % Config.P := fadd_toNat 0 b
    _ = b.toNat := by rw [Nat.zero_add, Nat.mod_eq_of_lt hb]

/-- `addBlock_get_rate` at a position of the sponge that lies in its rate. -/
theorem addBlock_get_of_lt (sp : Sponge) (b : Block) {i : Fin 16} (hi : i.val < 10) :
    (addBlock sp b)[i] = fadd sp[i] b[i.castLT hi] :=
  addBlock_get_rate sp b (i.castLT hi)

theorem addBlock_toNat_of_lt (sp : Sponge) (b : Block) {i : Fin 16} (hi : i.val < 10) :
    ((addBlock sp b)[i]).toNat = ((sp[i]).toNat + (b[i.castLT hi]).toNat) % Config.P := by
  rw [addBlock_get_of_lt sp b hi, fadd_toNat]

/-- A block of 10 elements padded has no place for the ONE, so HASHF's block is the padded one at 10 too (R178). -/
theorem hashBlock_eq_padBlock (n : Nat) (x : Block) : hashBlock n x = padBlock n x := by
  unfold hashBlock
  split
  case isTrue h =>
    refine Vector.ext fun i hi => ?_
    rw [h]
    exact ((padBlock_get 10 x ⟨i, hi⟩).trans (if_pos hi)).symm
  case isFalse => rfl

/-- FR[0..n-1] padded, at a position of the rate (R176). -/
theorem padBlock_frBlock_get (n : Nat) (s : State) {i : Fin 16} (hi : i.val < 10) :
    (padBlock n s.frBlock)[i.castLT hi] = if i.val < n then s.fr[i] else if i.val = n then Config.ONE else 0 := by
  rw [padBlock_get, State.frBlock_get]
  rfl

/-- The block of PADABS or HASHF keeps words canonical: it holds checked words, ONE and 0 (R176). -/
theorem padBlock_frBlock_canonical {n : Nat} {s : State} (hc : ∀ r : Reg, r.val < n → Canonical s.fr[r]) {i : Fin 16}
    (hi : i.val < 10) : Canonical (padBlock n s.frBlock)[i.castLT hi] := by
  rw [padBlock_frBlock_get n s hi]
  split
  case isTrue hn => exact hc i hn
  case isFalse => split <;> decide

/-- The state HASHF permutes first (R178): the initial rate is 0, so the block stands in it as it is. -/
theorem addBlock_initSponge_get {n : Nat} {s : State} (hn : n ≤ 10) (hc : ∀ r : Reg, r.val < n → Canonical s.fr[r])
    (i : Fin 16) :
    (addBlock (initSponge .fixedLength) (hashBlock n s.frBlock))[i] =
      if i.val < n then s.fr[i] else if i.val < 10 ∧ n < i.val then 0 else Config.ONE := by
  by_cases hi : i.val < 10
  · rw [hashBlock_eq_padBlock, addBlock_get_of_lt _ _ hi, initSponge_get, if_pos hi,
      zero_fadd (padBlock_frBlock_canonical hc hi), padBlock_frBlock_get n s hi]
    rcases lt_trichotomy i.val n with hlt | heq | hgt
    · rw [if_pos hlt, if_pos hlt]
    · simp [heq]
    · simp [hi, hgt, hgt.not_gt, hgt.ne']
  · rw [addBlock_get_capacity _ _ i (by omega), initSponge_get, if_neg hi, if_neg (show ¬ i.val < n by omega),
      if_neg (mt And.left hi)]
    rfl

/-- The first `k` words of a rate go to FR[0..k-1], and the registers beyond keep their words (R175, R178). -/
theorem State.setFrPrefix_rate_get (s : State) (sp : Sponge) {k : Nat} (hk : k ≤ 10) (r : Reg) :
    (s.setFrPrefix ((rateOf sp).toList.take k)).fr[r] = if r.val < k then sp[r] else s.fr[r] := by
  rw [State.setFrPrefix_get]
  split
  case isTrue h =>
    have h10 : r.val < 10 := by omega
    simp [List.getElem?_take_of_lt h, h10, rateOf]
  case isFalse h =>
    rw [List.getElem?_take_eq_none (by omega), Option.getD_none]

/-- A longer padded block has its ONE where a shorter one has a 0 (R176). -/
theorem le_of_padBlock_eq {n m : Nat} {x y : Block} (hm : m ≤ 9) (h : padBlock n x = padBlock m y) : m ≤ n := by
  by_contra hlt
  have hpos := congrArg (fun b : Block => b[(⟨m, by omega⟩ : Fin 10)]) h
  simp only [padBlock_get, if_neg (show ¬ m < n by omega), if_neg (show ¬ m = n by omega), lt_irrefl, if_false,
    if_true] at hpos
  exact absurd hpos (by decide)

end Sys2Proof.Machine
end

section
/-! The sponge commands (R170 to R178): the state each answers, position by position, and its checks; and padding. -/

namespace Sys2Proof.Machine

open Sys2Proof

/-- Settles O39. -/
theorem sinitResult : Obligations.SinitResult := by
  refine fun dom s => ⟨initSponge dom, exec_sinit s dom, fun i => ?_⟩
  rw [initSponge_get]
  cases dom <;> rfl

/-- Settles O40: the block added is FR[0..9], checked whole. -/
theorem absorbResult : Obligations.AbsorbResult := by
  intro s
  rw [exec_absorb]
  refine ⟨fun hc => ⟨addBlock s.sponge s.frBlock, withPrefix_ok hc, fun i hi => ?_, addBlock_get_capacity _ _⟩,
    fun r hr hbad => withPrefix_error fun hc => hbad (hc r hr)⟩
  rw [addBlock_toNat_of_lt _ _ hi, State.frBlock_get]
  rfl

/-- Settles O41: all ten words of the old rate are written. -/
theorem squeezeResult : Obligations.SqueezeResult := by
  refine fun s => ⟨_, exec_squeeze s, fun r => ?_⟩
  have hrate := s.setFrPrefix_rate_get s.sponge le_rfl r
  rwa [List.take_of_length_le (by simp)] at hrate

/-- Settles O42: the block added is the padded one, and the length is checked before the words. -/
theorem padabsResult : Obligations.PadabsResult := by
  refine fun n s => ⟨fun hn hc => ?_, exec_padabs_long s, fun hn r hr hbad => ?_⟩
  · refine ⟨addBlock s.sponge (padBlock n s.frBlock), (exec_padabs s hn).trans (withPrefix_ok hc), fun i hi => ?_,
      addBlock_get_capacity _ _⟩
    rw [addBlock_toNat_of_lt _ _ hi, padBlock_frBlock_get n s hi, apply_ite BitVec.toNat, apply_ite BitVec.toNat]
    rfl
  · exact (exec_padabs s hn).trans (withPrefix_error fun hc => hbad (hc r hr))

/-- Settles O43: the squeeze gives the rate of the first permutation and runs the second. -/
theorem hashfResult : Obligations.HashfResult := by
  refine fun n s => ⟨fun hn hc => ?_, exec_hashf_long s, fun hn r hr hbad => ?_⟩
  · exact ⟨_, _, (exec_hashf s hn).trans (withPrefix_ok hc), addBlock_initSponge_get hn hc,
      s.setFrPrefix_rate_get _ (by decide)⟩
  · exact (exec_hashf s hn).trans (withPrefix_error fun hc => hbad (hc r hr))

/-- Settles O44: the ONE marks the length, and below it stand the elements. -/
theorem paddingIsInjective : Obligations.PaddingIsInjective := by
  intro n m x y hn hm h
  obtain rfl : n = m := (le_of_padBlock_eq hn h.symm).antisymm (le_of_padBlock_eq hm h)
  refine ⟨rfl, fun i hi => ?_⟩
  have hpos := congrArg (fun b : Block => b[i]) h
  simpa only [padBlock_get, if_pos hi] using hpos

end Sys2Proof.Machine
end

section
/-! Draws cut in two, draws from the queue alone, and draws from an empty queue as the stream of the squeezed
blocks (R200, R205, R206). -/

namespace Sys2Proof.Safety

open Sys2Proof Sys2Proof.Machine

/-- A draw may be cut in two: the second part goes on where the first one ended (R200). -/
theorem drawElements_add (T : Tables) (kind : QKind) (j k : Nat) (m : Sampler) :
    drawElements T kind (j + k) m =
      ((drawElements T kind j m).1 ++ (drawElements T kind k (drawElements T kind j m).2).1,
        (drawElements T kind k (drawElements T kind j m).2).2) := by
  induction j generalizing m with
  | zero => simp
  | succ j ih => rw [Nat.add_right_comm, drawElements_succ, drawElements_succ, ih, List.cons_append]

/-- As long as the queue lasts, a draw takes its head and squeezes nothing (R200). -/
theorem drawElements_of_le_length (T : Tables) (kind : QKind) (sp : Sponge) {k : Nat} {q : List Word}
    (h : k ≤ q.length) : drawElements T kind k ⟨sp, q⟩ = (q.take k, ⟨sp, q.drop k⟩) := by
  induction k generalizing q with
  | zero => rfl
  | succ k ih =>
    cases q with
    | nil => cases h
    | cons e q => rw [drawElements_succ, nextElement_cons, ih (Nat.le_of_succ_le_succ h), List.take_succ_cons,
        List.drop_succ_cons]

/-- A draw from an empty queue starts with one squeeze, and goes on from the block in the queue (R200). -/
theorem drawElements_succ_nil (T : Tables) (kind : QKind) (k : Nat) (sp : Sponge) :
    drawElements T kind (k + 1) ⟨sp, []⟩ =
      drawElements T kind (k + 1) ⟨tip5 T sp, queueOrder kind (rateOf sp)⟩ := by
  have hlen := queueOrder_length kind (rateOf sp)
  rw [drawElements_succ, drawElements_succ, nextElement_nil]
  cases hq : queueOrder kind (rateOf sp) with
  | nil => simp [hq] at hlen
  | cons e q => rw [nextElement_cons, List.headD_cons, List.tail_cons]

/-- The elements of the blocks of `k` squeezes in the order in which a sampling command takes them (R200). -/
def sampleStream (T : Tables) (kind : QKind) (k : Nat) (sp : Sponge) : List Word :=
  (squeezes T k sp).1.flatMap (queueOrder kind)

theorem sampleStream_smps (T : Tables) (k : Nat) (sp : Sponge) : sampleStream T .smps k sp = scalarStream T k sp := rfl

theorem sampleStream_succ (T : Tables) (kind : QKind) (k : Nat) (sp : Sponge) :
    sampleStream T kind (k + 1) sp = queueOrder kind (rateOf sp) ++ sampleStream T kind k (tip5 T sp) := rfl

theorem squeezes_succ_snd (T : Tables) (k : Nat) (sp : Sponge) :
    (squeezes T (k + 1) sp).2 = (squeezes T k (tip5 T sp)).2 := rfl

/-- Each squeeze gives ten elements. -/
theorem sampleStream_length (T : Tables) (kind : QKind) (k : Nat) (sp : Sponge) :
    (sampleStream T kind k sp).length = 10 * k := by
  induction k generalizing sp with
  | zero => rfl
  | succ k ih => rw [sampleStream_succ, List.length_append, queueOrder_length, ih, Nat.mul_succ, Nat.add_comm]

/-- The elements of the stream are the words of the rates met on the way (R173). -/
theorem mem_sampleStream {T : Tables} {kind : QKind} {k : Nat} {sp : Sponge} {e : Word} :
    e ∈ sampleStream T kind k sp ↔ ∃ i < k, e ∈ (rateOf ((tip5 T)^[i] sp)).toList := by
  induction k generalizing sp with
  | zero => simp [sampleStream, squeezes]
  | succ k ih => rw [sampleStream_succ, List.mem_append, mem_queueOrder, ih, Nat.exists_lt_succ_left]; rfl

/-- From an empty queue `n` elements are the first `n` of the stream of the fewest squeezes that hold them, and the rest
of the last block waits in the queue (R200, R206). -/
theorem drawElements_nil (T : Tables) (kind : QKind) {k n : Nat} (sp : Sponge) (hle : n ≤ 10 * k)
    (hlt : 10 * k < n + 10) :
    drawElements T kind n ⟨sp, []⟩ =
      ((sampleStream T kind k sp).take n, ⟨(squeezes T k sp).2, (sampleStream T kind k sp).drop n⟩) := by
  induction k generalizing n sp with
  | zero =>
    obtain rfl : n = 0 := by omega
    rfl
  | succ k ih =>
    obtain ⟨n, rfl⟩ : ∃ j, n = j + 1 := ⟨n - 1, by omega⟩
    have hlen := queueOrder_length kind (rateOf sp)
    rw [drawElements_succ_nil, sampleStream_succ, squeezes_succ_snd]
    rcases Nat.lt_or_ge n 10 with hn | hn
    · obtain rfl : k = 0 := by omega
      rw [drawElements_of_le_length _ _ _ (by omega), show sampleStream T kind 0 (tip5 T sp) = [] from rfl,
        List.append_nil]
      rfl
    · obtain ⟨j, hj⟩ : ∃ j, n + 1 = 10 + j := ⟨n - 9, by omega⟩
      rw [hj, drawElements_add, drawElements_of_le_length _ _ _ hlen.ge, ← hlen, List.drop_length,
        ih _ (by omega) (by omega), List.take_length, List.take_length_add_append, List.drop_length_add_append]

theorem rateOf_toList (sp : Sponge) : (rateOf sp).toList = sp.toList.take 10 := by
  refine List.ext_getElem (by simp) fun i hi _ => ?_
  simp [rateOf]

/-- Settles O45: the stream of scalar sampling is `scalarStream`. -/
theorem scalarDrawTakesTheStream : Obligations.ScalarDrawTakesTheStream := by
  intro T n sp
  rw [← sampleStream_smps]
  exact drawElements_nil T .smps sp (by omega) (by omega)

/-- Settles O49: one squeeze holds the elements, and its block is taken in reverse. -/
theorem indexDrawReversesEachBlock : Obligations.IndexDrawReversesEachBlock := by
  intro T sp n hn
  have hblock : sampleStream T .smpi 1 sp = (sp.toList.take 10).reverse := by
    rw [← rateOf_toList]
    exact List.append_nil _
  rw [drawElements_nil T .smpi (k := 1) sp (by omega) (by omega), hblock]
  rfl

end Sys2Proof.Safety
end

section
/-! SMPI's loop as a draw: what it strikes out, when it finds nothing, and a call cut in two (R201 to R204). -/

namespace Sys2Proof.Safety

open Sys2Proof Sys2Proof.Machine

/-- The rejected elements are those of value P - 1 (R202). -/
theorem rejected_eq_decide (e : Word) : rejected e = decide (value e = Config.P - 1) := by
  rw [rejected, beq_eq_decide, decide_eq_decide, ← canon_toNat, BitVec.toNat_inj.symm]
  rfl

/-- The loop examines elements in stream order and stops at the first one that is not rejected (R201). -/
theorem nextAccepted_eq_some {T : Tables} {fuel : Nat} {m m' : Sampler} {e : Word}
    (h : nextAccepted T fuel m = some (e, m')) :
    ∃ n rs, drawElements T .smpi (n + 1) m = (rs ++ [e], m') ∧ ∀ r ∈ rs, rejected r = true := by
  induction fuel generalizing m with
  | zero => cases h
  | succ fuel ih =>
    rw [nextAccepted_succ] at h
    split at h
    case isTrue hr =>
      obtain ⟨n, rs, hd, hrs⟩ := ih h
      exact ⟨n + 1, (nextElement T .smpi m).1 :: rs, by rw [drawElements_succ, hd, List.cons_append],
        List.forall_mem_cons.2 ⟨hr, hrs⟩⟩
    case isFalse =>
      exact ⟨0, [], by rw [drawElements_succ, Option.some.inj h]; rfl, List.forall_mem_nil _⟩

/-- The loop finds nothing when every element its fuel lets it examine is rejected (R208). -/
theorem nextAccepted_eq_none_iff {T : Tables} {fuel : Nat} {m : Sampler} :
    nextAccepted T fuel m = none ↔ ∀ e ∈ (drawElements T .smpi fuel m).1, rejected e = true := by
  induction fuel generalizing m with
  | zero => simp
  | succ fuel ih =>
    rw [nextAccepted_succ, drawElements_succ, List.forall_mem_cons, ← ih]
    split
    case isTrue hr => exact (and_iff_right hr).symm
    case isFalse hr => exact iff_of_false (Option.some_ne_none _) fun h => hr h.1

/-- What more fuel does not find, less fuel does not find. -/
theorem nextAccepted_eq_none_of_le {T : Tables} {j k : Nat} {m : Sampler} (hjk : j ≤ k)
    (h : nextAccepted T k m = none) : nextAccepted T j m = none := by
  obtain ⟨d, rfl⟩ := Nat.exists_eq_add_of_le hjk
  rw [nextAccepted_eq_none_iff, drawElements_add] at h
  exact nextAccepted_eq_none_iff.2 fun e he => h e (List.mem_append_left _ he)

/-- A call of `j + k` indices is one of `j` and, from where it ended, one of `k` (R204). -/
theorem drawAccepted_add {T : Tables} {j k : Nat} {m m' : Sampler} {es : List Word}
    (h : drawAccepted T (j + k) m = some (es, m')) :
    ∃ es₁ m₁ es₂, drawAccepted T j m = some (es₁, m₁) ∧ drawAccepted T k m₁ = some (es₂, m') ∧ es = es₁ ++ es₂ := by
  induction j generalizing m es with
  | zero => exact ⟨[], m, es, rfl, by rwa [Nat.zero_add] at h, rfl⟩
  | succ j ih =>
    rw [Nat.add_right_comm] at h
    obtain ⟨e, m₀, rest, he, hrest, rfl⟩ := drawAccepted_succ_eq_some.1 h
    obtain ⟨es₁, m₁, es₂, h₁, h₂, rfl⟩ := ih hrest
    exact ⟨e :: es₁, m₁, es₂, drawAccepted_succ_eq_some.2 ⟨e, m₀, es₁, he, h₁, rfl⟩, h₂, rfl⟩

/-- Settles O48: each loop ends its draw in the one element it keeps, and the draws follow one another. -/
theorem indexDrawSkipsOnlyRejected : Obligations.IndexDrawSkipsOnlyRejected := by
  intro T k m m' es h
  refine ⟨drawAccepted_length h, ?_⟩
  induction k generalizing m es with
  | zero =>
    cases h
    exact ⟨0, rfl, rfl, fun _ => rfl, by simp⟩
  | succ k ih =>
    obtain ⟨e, m₁, rest, he, hrest, rfl⟩ := drawAccepted_succ_eq_some.1 h
    obtain ⟨n₁, rs, hd, hrs⟩ := nextAccepted_eq_some he
    obtain ⟨n₂, rfl, rfl, -, hlast⟩ := ih _ _ hrest
    have hkeep : value e ≠ Config.P - 1 := by
      simpa [rejected_eq_decide] using nextAccepted_accepts he
    have hstrike : rs.filter (fun r => decide (value r ≠ Config.P - 1)) = [] :=
      List.filter_eq_nil_iff.2 fun r hr => by simpa [rejected_eq_decide] using hrs r hr
    have hend : [e].filter (fun r => decide (value r ≠ Config.P - 1)) = [e] :=
      List.filter_cons_of_pos (decide_eq_true hkeep)
    refine ⟨n₁ + 1 + n₂, ?_, ?_, nofun, fun x hx => ?_⟩
    · rw [drawElements_add, hd]
    · rw [drawElements_add, hd, List.filter_append, List.filter_append, hstrike, hend]
      rfl
    · rw [drawElements_add, hd, List.getLast?_append, List.getLast?_concat, Option.or_eq_some_iff] at hx
      rcases hx with hx | ⟨-, hx⟩
      · exact hlast x hx
      · rwa [← Option.some.inj hx]

end Sys2Proof.Safety
end

section
/-! The sampling commands (R201, R203, R205): the state each answers, its checks in order, and a call in two
commands. -/

namespace Sys2Proof.Safety

open Sys2Proof Sys2Proof.Machine

variable (s : State)

theorem setFrPrefix_get_dite (ws : List Word) (r : Reg) :
    (s.setFrPrefix ws).fr[r] = if h : r.val < ws.length then ws[r.val] else s.fr[r] := by
  split
  case isTrue h => rw [State.setFrPrefix_get, List.getElem?_eq_getElem h, Option.getD_some]
  case isFalse h => exact setFrPrefix_get_of_length_le (Nat.le_of_not_lt h)

/-- The words a command writes to the first registers stand there afterwards (R22). -/
theorem setFrPrefix_toList_take {ws : List Word} {k : Nat} (hws : ws.length = k) (hk : k ≤ 16) :
    (s.setFrPrefix ws).fr.toList.take k = ws := by
  subst hws
  refine List.ext_getElem (by simpa using hk) fun i _ hi => ?_
  simp [State.setFrPrefix, hi]

/-- What a sampling command leaves, field by field: the first registers, the sponge and the queue (R201, R205). -/
theorem setFrPrefix_setSampler (ws : List Word) (kind : QKind) (m : Sampler) :
    (s.setFrPrefix ws).setSampler kind m =
      { s with fr := (s.setFrPrefix ws).fr, sponge := m.sponge, q := m.q, qkind := kind } := by
  simp only [State.setSampler, State.setFrPrefix]

/-- A continuation goes on from what the command before it left (R204, R206). -/
theorem sampler_setSampler (kind : QKind) (m : Sampler) : (s.setSampler kind m).sampler false = m := rfl

theorem sampleSeqOk_setSampler (kind : QKind) (m : Sampler) : (s.setSampler kind m).sampleSeqOk false kind = true :=
  (State.sampleSeqOk_iff _).2 (.inr rfl)

variable {s}

/-- A continuation of no such call may not run (R201, R205). -/
theorem sampleSeqOk_eq_false {start : Bool} {kind : QKind} (hstart : start = false) (hq : s.qkind ≠ kind) :
    s.sampleSeqOk start kind = false := by
  rw [Bool.eq_false_iff, Ne, State.sampleSeqOk_iff]
  simp [hstart, hq]

/-- `b & (b - 1)` singles out the powers of two (R201). -/
theorem boundOk_iff {b : Word} : boundOk b = true ↔ IsPowerOfTwo b := by
  have hbits : boundOk b = true ↔ b.toNat ≠ 0 ∧ b.toNat &&& (b.toNat - 1) = 0 := by
    have hzero (w : Word) : w = 0 ↔ w.toNat = 0 := BitVec.toNat_inj.symm
    rw [boundOk, Bool.and_eq_true, bne_iff_ne, beq_iff_eq, Ne, hzero, hzero, BitVec.toNat_and]
    refine and_congr_right fun h0 => ?_
    have hle : 1 ≤ b := BitVec.le_def.2 (Nat.one_le_iff_ne_zero.2 h0)
    rw [BitVec.toNat_sub_of_le hle]
    rfl
  rw [hbits, Nat.ne_zero_and_sub_one_eq_zero_iff_isPowerOfTwo]
  constructor
  · rintro ⟨k, hk⟩
    exact ⟨⟨k, (Nat.pow_lt_pow_iff_right (by decide)).1 (hk ▸ b.isLt)⟩, hk⟩
  · rintro ⟨k, hk⟩
    exact ⟨k.val, hk⟩

theorem boundOk_eq_false {b : Word} (h : ¬ IsPowerOfTwo b) : boundOk b = false := by
  rwa [Bool.eq_false_iff, Ne, boundOk_iff]

/-- The index is the element's value modulo the bound (R203). -/
theorem indexOf_toNat (b e : Word) : (indexOf b e).toNat = value e % b.toNat := by
  rw [indexOf, BitVec.toNat_umod, canon_toNat]

/-- A continuation of an index-sampling call, with the bound put back in its register (R204, R267). -/
theorem exec_smpi_continue {r : Reg} {b : Word} {count : Nat} {es : List Word} {m m' : Sampler} (hc : count ≤ 16)
    (hb : IsPowerOfTwo b) (hd : drawAccepted Config.tables count m = some (es, m')) :
    exec (.smpi false r count) ((s.setSampler .smpi m).setFr r b) =
      .next ((((s.setSampler .smpi m).setFr r b).setFrPrefix (es.map (indexOf b))).setSampler .smpi m') := by
  have hget : ((s.setSampler .smpi m).setFr r b).fr[r] = b := State.setFr_get_self ..
  have h := exec_smpi ((s.setSampler .smpi m).setFr r b) hc (boundOk_iff.2 (hget.symm ▸ hb))
    (sampleSeqOk_setSampler s .smpi m) hd
  rwa [hget] at h

/-- Settles O46: each clause is one of the command's outcomes, the registers read off the draw. -/
theorem smpsResult : Obligations.SmpsResult := by
  refine fun start count s => ⟨fun hc hq => ?_, exec_smps_long s, fun hc hstart hq => ?_⟩
  · have hx := exec_smps s hc (s.sampleSeqOk_iff.2 hq)
    rw [setFrPrefix_setSampler] at hx
    exact ⟨_, hx, drawElements_length .., setFrPrefix_get_dite s _⟩
  · exact exec_smps_seq s hc (sampleSeqOk_eq_false hstart hq)

/-- Settles O50: the bound check is `IsPowerOfTwo`, and an index is the element's value modulo the bound. -/
theorem smpiResult : Obligations.SmpiResult := by
  refine fun start rs1 count s => ⟨fun es m hc hb hq hd => ?_, exec_smpi_long s, fun hc hb => ?_,
    fun hc hb hstart hq => ?_⟩
  · have hx := exec_smpi s hc (boundOk_iff.2 hb) (s.sampleSeqOk_iff.2 hq) hd
    rw [setFrPrefix_setSampler] at hx
    refine ⟨_, hx, drawAccepted_length hd, fun r => ?_⟩
    simp only [setFrPrefix_get_dite, apply_dite BitVec.toNat, List.getElem_map, List.length_map, indexOf_toNat]
  · exact exec_smpi_bound s hc (boundOk_eq_false hb)
  · exact exec_smpi_seq s hc (boundOk_iff.2 hb) (sampleSeqOk_eq_false hstart hq)

/-- Settles O47: the second command draws from where the first one ended, as one draw cut in two does. -/
theorem smpsCallMayBeSplit : Obligations.SmpsCallMayBeSplit := by
  intro start c c' s hc hc' hq
  refine ⟨_, _, exec_smps s hc (s.sampleSeqOk_iff.2 hq), exec_smps _ hc' (sampleSeqOk_setSampler _ _ _), ?_⟩
  rw [sampler_setSampler, State.setSampler_fr, State.setSampler_fr,
    setFrPrefix_toList_take _ (drawElements_length ..) (by omega),
    setFrPrefix_toList_take _ (drawElements_length ..) (by omega), Nat.mul_add, drawElements_add]
  rfl

/-- Settles O51: the second command draws from where the first one ended, with the same bound. -/
theorem smpiCallMayBeSplit : Obligations.SmpiCallMayBeSplit := by
  intro start r c c' s es m hc hc' hb hq hd
  obtain ⟨es₁, m₁, es₂, h₁, h₂, rfl⟩ := drawAccepted_add hd
  have hfirst := exec_smpi s hc (boundOk_iff.2 hb) (s.sampleSeqOk_iff.2 hq) h₁
  have hsecond := exec_smpi_continue (s := s.setFrPrefix (es₁.map (indexOf s.fr[r]))) (r := r) hc' hb h₂
  refine ⟨_, _, hfirst, hsecond, ?_, State.setSampler_sponge .., State.setSampler_q ..⟩
  rw [State.setSampler_fr, State.setSampler_fr,
    setFrPrefix_toList_take _ (by rw [List.length_map, drawAccepted_length h₁]) hc,
    setFrPrefix_toList_take _ (by rw [List.length_map, drawAccepted_length h₂]) hc', List.map_append]

end Sys2Proof.Safety
end

section
/-! A loop that meets only rejected elements (R208): a sponge state that gives ten of them is known from its capacity,
so more squeezes than there are capacities meet one state twice, and from there on nothing new comes. -/

namespace Sys2Proof.Safety

open Sys2Proof Sys2Proof.Machine

/-- If the iterates of `f` at `x` below `N` all lie in `D`, and `g` tells the members of `D` apart by fewer than `N`
values, then an iterate has come twice and all iterates lie in `D`. -/
theorem iterate_mem_of_card_lt {α β : Type} [Fintype β] {f : α → α} {D : Set α} {g : α → β} {x : α} {N : Nat}
    (hg : Set.InjOn g D) (hcard : Fintype.card β < N) (h : ∀ i < N, f^[i] x ∈ D) (i : Nat) : f^[i] x ∈ D := by
  obtain ⟨a, b, hab, hgab⟩ := Fintype.exists_ne_map_eq_of_card_lt (fun i : Fin N => g (f^[i] x)) (by simpa using hcard)
  wlog hlt : a < b generalizing a b
  · exact this b a hab.symm hgab.symm (lt_of_le_of_ne (not_lt.1 hlt) hab.symm)
  have hrepeat : f^[a] x = f^[b] x := hg (h a a.isLt) (h b b.isLt) hgab
  induction i using Nat.strong_induction_on with
  | _ i ih =>
    rcases Nat.lt_or_ge i N with hi | hi
    · exact h i hi
    · have hback : f^[i] x = f^[i - b + a] x := by
        rw [Function.iterate_add_apply, hrepeat, ← Function.iterate_add_apply, Nat.sub_add_cancel (by omega)]
      rw [hback]
      exact ih _ (by omega)

/-- The sponge states whose squeezed block holds nothing but rejected elements (R208). -/
def deadStates : Set Sponge := {sp | ∀ e ∈ (rateOf sp).toList, rejected e = true}

/-- The capacity of a sponge state, S[10..15] (R23), as numbers. -/
def capacityOf (sp : Sponge) : Fin 6 → Fin (2 ^ 64) := fun i => (sp[10 + i.val]).toFin

/-- One word alone is rejected, canonical or not: 2^64 is invertible mod P, and P - 1 has one word below 2^64 (R202). -/
theorem eq_of_rejected {e : Word} (h : rejected e = true) : e = 0xFFFFFFFE00000002 := by
  rw [rejected_eq_decide, decide_eq_true_eq] at h
  have hmod := value_mul_radix_modEq e
  have hlt := e.isLt
  apply BitVec.eq_of_toNat_eq
  rw [h, Nat.ModEq] at hmod
  simp only [Config.P] at *
  change e.toNat = 0xFFFFFFFE00000002
  omega

/-- The rate of a dead state is fixed, so its capacity tells it apart. -/
theorem capacityOf_injOn_deadStates : Set.InjOn capacityOf deadStates := by
  have hrate {sp : Sponge} (hsp : sp ∈ deadStates) (i : Fin 10) : sp[i.val] = 0xFFFFFFFE00000002 :=
    eq_of_rejected (hsp _ (by rw [← rateOf_get, Vector.mem_toList_iff]; exact Vector.getElem_mem _))
  intro s hs s' hs' hcap
  refine sponge_ext fun i => ?_
  by_cases hi : i.val < 10
  · exact (hrate hs ⟨i, hi⟩).trans (hrate hs' ⟨i, hi⟩).symm
  · have hword := congrFun hcap ⟨i.val - 10, by omega⟩
    simp only [capacityOf, BitVec.toFin_inj, Nat.add_sub_cancel' (Nat.le_of_not_lt hi)] at hword
    exact hword

theorem card_capacity_lt : Fintype.card (Fin 6 → Fin (2 ^ 64)) < Config.sampleRefills := by
  rw [Fintype.card_fun, Fintype.card_fin, Fintype.card_fin]
  exact Nat.lt_succ_self _

/-- With fuel for what waits in the queue and `k` squeezes, the loop finds nothing exactly when the queue and the `k`
blocks hold nothing but rejected elements (R200, R208). -/
theorem nextAccepted_squeezes_eq_none_iff {T : Tables} {m : Sampler} {k : Nat} :
    nextAccepted T (10 * k + m.q.length) m = none ↔
      (∀ e ∈ m.q, rejected e = true) ∧ ∀ i < k, (tip5 T)^[i] m.sponge ∈ deadStates := by
  obtain ⟨sp, q⟩ := m
  rw [nextAccepted_eq_none_iff, Nat.add_comm, drawElements_add, drawElements_of_le_length _ _ _ le_rfl,
    List.drop_length, drawElements_nil T .smpi sp le_rfl (by omega), List.take_length,
    List.take_of_length_le (sampleStream_length ..).le, List.forall_mem_append]
  refine and_congr_right fun _ => ⟨fun h i hi e he => h e (mem_sampleStream.2 ⟨i, hi, he⟩), fun h e he => ?_⟩
  obtain ⟨i, hi, he⟩ := mem_sampleStream.1 he
  exact h i hi e he

/-- Settles O52: the fuel pays for more squeezes than there are capacities, so all later states are dead too. -/
theorem spentFuelMeansNoEnd : Obligations.SpentFuelMeansNoEnd := by
  intro T m h fuel
  obtain ⟨hq, hdead⟩ := nextAccepted_squeezes_eq_none_iff.1 h
  have hall := iterate_mem_of_card_lt capacityOf_injOn_deadStates card_capacity_lt hdead
  exact nextAccepted_eq_none_of_le (by omega) (nextAccepted_squeezes_eq_none_iff.2 ⟨hq, fun i (_ : i < fuel) => hall i⟩)

end Sys2Proof.Safety
end

section
/-! The errors of a command (R223): each check in turn, when it is the first to fail, is the one whose code `exec` records,
and when all pass `exec` keeps the error state. Every command therefore answers a next state or is a stuck SMPI, and no
step stops (R222, R225). -/

namespace Sys2Proof.Safety

open Sys2Proof Sys2Proof.Machine

/-- The error state of `t` is that of `s` (R30). -/
def ErrorKept (s t : State) : Prop := t.err = s.err ∧ t.errCode = s.errCode

variable {i : Instr} {s t : State} {c : ErrCode}

theorem errorKept_refl (s : State) : ErrorKept s s := ⟨rfl, rfl⟩

theorem errorKept_setFr (s : State) (rd : Reg) (v : Word) : ErrorKept s (s.setFr rd v) :=
  ⟨s.setFr_err rd v, s.setFr_errCode rd v⟩

theorem errorKept_setCmp (s : State) (b : Bool) : ErrorKept s (s.setCmp b) := ⟨s.setCmp_err b, s.setCmp_errCode b⟩

theorem ErrorKept.complete (h : ErrorKept s t) : ErrorKept s t.complete := h
theorem ErrorKept.reply (h : ErrorKept s t) (v : Word) : ErrorKept s (t.reply v) := h

/-- Under ERR = 1 recording another error changes nothing (R220). -/
theorem errorKept_recordError (herr : s.err = true) (c : ErrCode) : ErrorKept s (s.recordError c) := by
  rw [State.recordError_of_err herr]
  exact errorKept_refl s

/-! The second reading of SMPI's and SMPS's checks is that of their meanings (R201, R205). -/

theorem boundError_smpi (start : Bool) (rs1 : Reg) (count : Nat) :
    boundError (.smpi start rs1 count) s = !boundOk s.fr[rs1] := by
  rw [Bool.eq_iff_iff, Bool.not_eq_true', Bool.eq_false_iff, Ne, boundOk_iff]
  exact decide_eq_true_iff

theorem sequenceError_smpi (start : Bool) (rs1 : Reg) (count : Nat) :
    sequenceError (.smpi start rs1 count) s = !s.sampleSeqOk start .smpi := by
  cases start <;> simp [sequenceError, State.sampleSeqOk, beq_eq_decide]

theorem sequenceError_smps (start : Bool) (count : Nat) :
    sequenceError (.smps start count) s = !s.sampleSeqOk start .smps := by
  cases start <;> simp [sequenceError, State.sampleSeqOk, beq_eq_decide]

/-! The operand forms, with their operands as the list that `fieldOperands` gives (R21). -/

theorem withField_refused {r : Reg} {k : Word → Host.Outcome State Fault Refusal}
    (h : ¬ ∀ x ∈ [r], Canonical s.fr[x]) : withField r s k = .next (s.recordError .operandNoncanon) :=
  withField_error (by simpa using h)

theorem withFields_refused {r1 r2 : Reg} {k : Word → Word → Host.Outcome State Fault Refusal}
    (h : ¬ ∀ x ∈ [r1, r2], Canonical s.fr[x]) : withFields r1 r2 s k = .next (s.recordError .operandNoncanon) :=
  withFields_error (by simpa using h)

theorem withPrefix_refused {n : Nat} {k : Block → Host.Outcome State Fault Refusal}
    (h : ¬ ∀ x ∈ (List.finRange 16).take n, Canonical s.fr[x]) :
    withPrefix n s k = .next (s.recordError .operandNoncanon) :=
  withPrefix_error (by simpa only [mem_finRange_take] using h)

theorem next_keeps (hx : exec i s = .next t) (ht : ErrorKept s t) : ∃ t, exec i s = .next t ∧ ErrorKept s t :=
  ⟨t, hx, ht⟩

theorem withField_keeps {r : Reg} {g : Word → State} (hx : exec i s = withField r s fun a => .next (g a))
    (h : ∀ x ∈ [r], Canonical s.fr[x]) (hg : ∀ a, ErrorKept s (g a)) : ∃ t, exec i s = .next t ∧ ErrorKept s t :=
  ⟨_, hx.trans (withField_ok (h r (by simp))), hg _⟩

theorem withFields_keeps {r1 r2 : Reg} {g : Word → Word → State}
    (hx : exec i s = withFields r1 r2 s fun a b => .next (g a b)) (h : ∀ x ∈ [r1, r2], Canonical s.fr[x])
    (hg : ∀ a b, ErrorKept s (g a b)) : ∃ t, exec i s = .next t ∧ ErrorKept s t :=
  ⟨_, hx.trans (withFields_ok (h r1 (by simp)) (h r2 (by simp))), hg _ _⟩

theorem withPrefix_keeps {n : Nat} {g : Block → State} (hx : exec i s = withPrefix n s fun x => .next (g x))
    (h : ∀ x ∈ (List.finRange 16).take n, Canonical s.fr[x]) (hg : ∀ x, ErrorKept s (g x)) :
    ∃ t, exec i s = .next t ∧ ErrorKept s t :=
  ⟨_, hx.trans (withPrefix_ok fun r hr => h r (mem_finRange_take.2 hr)), hg _⟩

/-! One lemma per check of R223, in its order. -/

theorem exec_of_lengthError (hl : lengthError i = true) : exec i s = .next (s.recordError .badLength) := by
  cases i with
  | padabs => exact exec_padabs_long s (of_decide_eq_true hl)
  | hashf => exact exec_hashf_long s (of_decide_eq_true hl)
  | smpi => exact exec_smpi_long s (of_decide_eq_true hl)
  | smps => exact exec_smps_long s (of_decide_eq_true hl)
  | _ => cases hl

theorem exec_of_boundError (hl : lengthError i = false) (hb : boundError i s = true) :
    exec i s = .next (s.recordError .badBound) := by
  cases i with
  | smpi => exact exec_smpi_bound s (Nat.not_lt.1 (of_decide_eq_false hl)) (by simpa [boundError_smpi] using hb)
  | _ => cases hb

theorem exec_of_sequenceError (hl : lengthError i = false) (hb : boundError i s = false)
    (hq : sequenceError i s = true) : exec i s = .next (s.recordError .sampleSeq) := by
  cases i with
  | smpi =>
    exact exec_smpi_seq s (Nat.not_lt.1 (of_decide_eq_false hl)) (by simpa [boundError_smpi] using hb)
      (by simpa [sequenceError_smpi] using hq)
  | smps => exact exec_smps_seq s (Nat.not_lt.1 (of_decide_eq_false hl)) (by simpa [sequenceError_smps] using hq)
  | _ => cases hq

theorem exec_of_operandError (hl : lengthError i = false) (ho : operandError i s = true) :
    exec i s = .next (s.recordError .operandNoncanon) := by
  have hc : ¬ ∀ r ∈ fieldOperands i, Canonical s.fr[r] := by
    rw [← operandError_eq_false, ho]
    exact Bool.noConfusion
  cases i with
  | fadd => exact (exec_fadd ..).trans (withFields_refused hc)
  | fsub => exact (exec_fsub ..).trans (withFields_refused hc)
  | fmul => exact (exec_fmul ..).trans (withFields_refused hc)
  | feq => exact (exec_feq ..).trans (withFields_refused hc)
  | flt => exact (exec_flt ..).trans (withFields_refused hc)
  | fgt => exact (exec_fgt ..).trans (withFields_refused hc)
  | fneg => exact (exec_fneg ..).trans (withField_refused hc)
  | fsqr => exact (exec_fsqr ..).trans (withField_refused hc)
  | fcan => exact (exec_fcan ..).trans (withField_refused hc)
  | finv => exact (exec_finv ..).trans (withField_refused hc)
  | fpow => exact (exec_fpow ..).trans (withField_refused hc)
  | absorb => exact (exec_absorb s).trans (withPrefix_refused hc)
  | padabs n => exact (exec_padabs s (Nat.not_lt.1 (of_decide_eq_false hl))).trans (withPrefix_refused hc)
  | hashf n => exact (exec_hashf s (Nat.not_lt.1 (of_decide_eq_false hl))).trans (withPrefix_refused hc)
  | _ => cases ho

theorem exec_of_inverseError (ho : operandError i s = false) (hz : inverseError i s = true) :
    exec i s = .next (s.recordError .invZero) := by
  cases i with
  | finv rd rs1 =>
    have hc : Canonical s.fr[rs1] := operandError_eq_false.1 ho rs1 (by simp [fieldOperands])
    rw [exec_finv, withField_ok hc, if_pos (of_decide_eq_true hz)]
  | _ => cases hz

/-- The first error of R223's order is the one recorded, and nothing else changes (R222). -/
theorem exec_of_commandError_some (h : commandError i s = some c) : exec i s = .next (s.recordError c) := by
  unfold commandError at h
  split_ifs at h with hl hb hq ho hz <;> cases h
  · exact exec_of_lengthError hl
  · exact exec_of_boundError (eq_false_of_ne_true hl) hb
  · exact exec_of_sequenceError (eq_false_of_ne_true hl) (eq_false_of_ne_true hb) hq
  · exact exec_of_operandError (eq_false_of_ne_true hl) ho
  · exact exec_of_inverseError (eq_false_of_ne_true ho) hz

/-- SMPI with its checks passed ends without an error, or its loop is stuck (R208). -/
theorem exec_smpi_of_checks {start : Bool} {rs1 : Reg} {count : Nat} (hl : count ≤ 16)
    (hb : boundOk s.fr[rs1] = true) (hq : s.sampleSeqOk start .smpi = true) :
    (∃ t, exec (.smpi start rs1 count) s = .next t ∧ ErrorKept s t) ∨
      exec (.smpi start rs1 count) s = .fault .samplingStuck := by
  cases hd : drawAccepted Config.tables count (s.sampler start) with
  | some _ => exact .inl ⟨_, exec_smpi s hl hb hq hd, by simp [ErrorKept]⟩
  | none => exact .inr (exec_smpi_stuck s hl hb hq hd)

/-- A command that meets no error records none and, but for a stuck SMPI, answers a next state (R208). -/
theorem exec_of_commandError_none (h : commandError i s = none) :
    (∃ t, exec i s = .next t ∧ ErrorKept s t) ∨
      (exec i s = .fault .samplingStuck ∧ ∃ start rs1 count, i = .smpi start rs1 count) := by
  obtain ⟨hl, hb, hq, ho, hz⟩ := commandError_eq_none.1 h
  have hc := operandError_eq_false.1 ho
  cases i with
  | nop => exact .inl (next_keeps (exec_nop s) (errorKept_refl s))
  | fredc => exact .inl (next_keeps (exec_fredc ..) (errorKept_setFr ..))
  | ftom => exact .inl (next_keeps (exec_ftom ..) (errorKept_setFr ..))
  | sinit => exact .inl (next_keeps (exec_sinit ..) (by simp [ErrorKept]))
  | perm => exact .inl (next_keeps (exec_perm ..) (by simp [ErrorKept]))
  | squeeze => exact .inl (next_keeps (exec_squeeze ..) (by simp [ErrorKept]))
  | fadd => exact .inl (withFields_keeps (exec_fadd ..) hc fun _ _ => errorKept_setFr ..)
  | fsub => exact .inl (withFields_keeps (exec_fsub ..) hc fun _ _ => errorKept_setFr ..)
  | fmul => exact .inl (withFields_keeps (exec_fmul ..) hc fun _ _ => errorKept_setFr ..)
  | feq => exact .inl (withFields_keeps (exec_feq ..) hc fun _ _ => errorKept_setCmp ..)
  | flt => exact .inl (withFields_keeps (exec_flt ..) hc fun _ _ => errorKept_setCmp ..)
  | fgt => exact .inl (withFields_keeps (exec_fgt ..) hc fun _ _ => errorKept_setCmp ..)
  | fneg => exact .inl (withField_keeps (exec_fneg ..) hc fun _ => errorKept_setFr ..)
  | fsqr => exact .inl (withField_keeps (exec_fsqr ..) hc fun _ => errorKept_setFr ..)
  | fcan => exact .inl (withField_keeps (exec_fcan ..) hc fun _ => errorKept_setFr ..)
  | fpow => exact .inl (withField_keeps (exec_fpow ..) hc fun _ => errorKept_setFr ..)
  | finv rd rs1 =>
    have hx := (exec_finv s rd rs1).trans (withField_ok (hc rs1 (by simp [fieldOperands])))
    rw [if_neg (of_decide_eq_false hz)] at hx
    exact .inl ⟨_, hx, errorKept_setFr ..⟩
  | absorb => exact .inl (withPrefix_keeps (exec_absorb s) hc (by simp [ErrorKept]))
  | padabs n =>
    have hx := exec_padabs s (Nat.not_lt.1 (of_decide_eq_false hl))
    exact .inl (withPrefix_keeps hx hc (by simp [ErrorKept]))
  | hashf n =>
    have hx := exec_hashf s (Nat.not_lt.1 (of_decide_eq_false hl))
    exact .inl (withPrefix_keeps hx hc (by simp [ErrorKept]))
  | smpi start rs1 count =>
    refine (exec_smpi_of_checks (Nat.not_lt.1 (of_decide_eq_false hl)) ?_ ?_).imp_right fun hx => ⟨hx, _, _, _, rfl⟩
    · simpa [boundError_smpi] using hb
    · simpa [sequenceError_smpi] using hq
  | smps start count =>
    have hx := exec_smps s (Nat.not_lt.1 (of_decide_eq_false hl)) (by simpa [sequenceError_smps] using hq)
    exact .inl ⟨_, hx, by simp [ErrorKept]⟩

/-- Settles O15: the first check that fails names the code, and when none does the error state is kept. -/
theorem commandErrorsFollowTheCheckOrder : Obligations.CommandErrorsFollowTheCheckOrder := fun _ _ =>
  ⟨fun _ => exec_of_commandError_some, exec_of_commandError_none⟩

/-! No step stops. -/

/-- Whatever a command meets, the engine ends it in a next state (R222, R208). -/
theorem engineEnd_exec_next (i : Instr) (s : State) : ∃ t, engineEnd s (exec i s) = .next t := by
  cases he : commandError i s with
  | some c => exact ⟨_, by rw [exec_of_commandError_some he, engineEnd_next]⟩
  | none =>
    rcases exec_of_commandError_none he with ⟨t, hx, -⟩ | ⟨hx, -⟩
    · exact ⟨_, by rw [hx, engineEnd_next]⟩
    · exact ⟨_, by rw [hx, engineEnd_stuck]⟩

theorem engineRun_next (v : Word) (s : State) : ∃ t, engineRun v s = .next t := by
  cases hd : decodeCmd v with
  | error e => exact ⟨_, engineRun_error hd⟩
  | ok i =>
    rw [engineRun_ok hd]
    exact engineEnd_exec_next i s

theorem engineStep_next (s : State) : ∃ t, engineStep s = .next t := by
  cases hb : s.busy with
  | false => exact ⟨s, engineStep_off (.inl hb)⟩
  | true =>
    cases hp : s.pending with
    | none => exact ⟨s, engineStep_off (.inr hp)⟩
    | some v =>
      rw [engineStep_latched hb hp]
      exact engineRun_next v s

/-- Settles O7: the engine's turn answers a next state, and the other events do nothing else. -/
theorem stepNeverStops : Obligations.StepNeverStops := by
  intro s
  cases he : s.events with
  | nil =>
    rw [step_idle he]
    exact engineStep_next s
  | cons e rest =>
    rw [step_event he]
    cases e with
    | host a => exact ⟨_, runEvent_host a _⟩
    | engine => exact engineStep_next _
    | powerOn => exact ⟨_, runEvent_powerOn _⟩

/-! From ERR = 1 the error state is kept (R220), but for the resets and ERR_CLR (R32, R260). -/

theorem exec_errorKept (herr : s.err = true) (hx : exec i s = .next t) : ErrorKept s t := by
  cases he : commandError i s with
  | some c =>
    rw [next_inj ((exec_of_commandError_some he).symm.trans hx)]
    exact errorKept_recordError herr c
  | none =>
    rcases exec_of_commandError_none he with ⟨u, hu, hkept⟩ | ⟨hstuck, -⟩
    · rwa [next_inj (hu.symm.trans hx)]
    · cases hstuck.symm.trans hx

theorem engineStep_errorKept (herr : s.err = true) (h : engineStep s = .next t) : ErrorKept s t := by
  rcases engineStep_cases h with rfl | ⟨c, -, rfl⟩ | ⟨i, u, hx, rfl⟩
  · exact errorKept_refl t
  · exact (errorKept_recordError herr c).complete
  · exact (exec_errorKept herr hx).complete

theorem refuseAccess_errorKept (herr : s.err = true) (c : ErrCode) (a : Access) :
    ErrorKept s (refuseAccess c a s) := by
  cases a with
  | read => exact (errorKept_recordError herr c).reply 0
  | write => exact errorKept_recordError herr c

/-- Under ERR = 1 a CMD write changes LASTCMD alone (R224). -/
theorem hostWriteCmd_errorKept (herr : s.err = true) (v : Word) : ErrorKept s (hostWriteCmd v s) := by
  rw [hostWriteCmd, if_pos herr]
  exact ⟨rfl, rfl⟩

/-- The values CTRL admits are 0, which does nothing, and 1, 2 and 3 (R32). -/
theorem ctrl_value_cases {v : Word} (hv : writeError .ctrl v = none) : v = 0 ∨ v = 1 ∨ v = 2 ∨ v = 3 := by
  have hlt : v.toNat < 4 := by
    by_contra hge
    rw [writeError_ctrl_reserved (Nat.not_lt.1 hge)] at hv
    cases hv
  bv_omega

/-- Of the accepted writes only those of 1, 2 and 3 to CTRL touch the error state from ERR = 1 (R32, R220). -/
theorem windowWrite_errorKept {r : WinReg} {v : Word} (herr : s.err = true) (hv : writeError r v = none) :
    ErrorKept s (windowWrite r v s) ∨ r = .ctrl ∧ (v = 1 ∨ v = 2 ∨ v = 3) := by
  cases r with
  | cmd => exact .inl (hostWriteCmd_errorKept herr v)
  | ctrl =>
    rcases ctrl_value_cases hv with rfl | hv
    · exact .inl (errorKept_refl s)
    · exact .inr ⟨rfl, hv⟩
  | fr i => exact .inl (errorKept_setFr s i v)
  | sponge | status | id | cfg => exact .inl ⟨rfl, rfl⟩

/-- A write that names a register is an 8-byte one at its offset (R61, R62). -/
theorem eq_of_accessReg_write {off : BitVec 9} {width : Nat} {v : Word} {r : WinReg}
    (h : accessReg (.write off width v) = some r) : off = r.offset ∧ width = 8 := by
  rw [accessReg] at h
  split at h
  case isTrue hw => exact ⟨eq_offset_of_windowReg h, hw⟩
  case isFalse => cases h

theorem hostAccess_errorKept (herr : s.err = true) (a : Access) :
    ErrorKept s (hostAccess a s) ∨ ∃ v : Word, a = .write 0x110 8 v ∧ (v = 1 ∨ v = 2 ∨ v = 3) := by
  rcases hostAccess_cases a s with ⟨c, -, ha⟩ | ⟨r, hn, hr, ha⟩ <;> rw [ha]
  · exact .inl (refuseAccess_errorKept herr c a)
  · cases a with
    | read => exact .inl ((errorKept_refl s).reply _)
    | write off width v =>
      obtain ⟨hform, -⟩ := accessError_eq_none.1 hn
      refine (windowWrite_errorKept herr ((formError_write hr).symm.trans hform)).imp_right ?_
      rintro ⟨rfl, hv⟩
      obtain ⟨rfl, rfl⟩ := eq_of_accessReg_write hr
      exact ⟨v, rfl, hv⟩

/-- Settles O14: the first code is kept by the engine's turn and by every access but a clearing CTRL write. -/
theorem errorStateIsSticky : Obligations.ErrorStateIsSticky := by
  refine ⟨fun _ _ => rfl, fun s t herr h => ?_⟩
  have hkept (hk : ErrorKept s t) : t.err = true ∧ t.errCode = s.errCode := ⟨hk.1.trans herr, hk.2⟩
  cases he : s.events with
  | nil =>
    rw [step_idle he] at h
    exact .inl (hkept (engineStep_errorKept herr h))
  | cons e rest =>
    rw [step_event he] at h
    cases e with
    | engine => exact .inl (hkept (engineStep_errorKept (s := { s with events := rest }) herr h))
    | powerOn => exact .inr (.inl rfl)
    | host a =>
      rw [next_inj h] at hkept ⊢
      rcases hostAccess_errorKept (s := { s with events := rest }) herr a with hk | ⟨v, rfl, hv⟩
      · exact .inl (hkept hk)
      · exact .inr (.inr ⟨v, rfl, hv⟩)

end Sys2Proof.Safety
end

section
/-! The engine's turn with a command latched: it runs that command and completes it, or the command is an SMPI whose
loop is stuck (R208, R264, R269). -/

namespace Sys2Proof.Safety

open Sys2Proof Sys2Proof.Machine

variable {i : Instr} {s t : State} {v : Word} {o : Host.Outcome State Fault Refusal}

/-- The engine goes on from a command that completes, or that is stuck and leaves the state it met (R208, R264). -/
theorem engineEnd_eq_next (h : engineEnd s o = .next t) :
    (∃ u, o = .next u ∧ t = u.complete) ∨ o = .fault .samplingStuck ∧ t = s := by
  cases o with
  | next u => exact .inl ⟨u, rfl, next_inj h⟩
  | fault r =>
    cases r
    exact .inr ⟨rfl, next_inj h⟩
  | refused r => cases h

/-- A command that executes and completes leaves nothing latched, and LASTCMD as it was (R264). -/
theorem complete_of_exec (hx : exec i s = .next t) :
    t.complete.busy = false ∧ t.complete.pending = none ∧ t.complete.lastCmd = s.lastCmd := by
  obtain ⟨-, -, -, -, -, hlast, -, -⟩ := statusAndSpongeChangeOnlyAsListed i s t hx
  exact ⟨rfl, rfl, hlast⟩

/-- Only SMPI is ever stuck, and only when its loop finds no element to accept (R208). -/
theorem smpi_of_exec_stuck (hx : exec i s = .fault .samplingStuck) :
    ∃ start rs1 count, i = .smpi start rs1 count ∧ drawAccepted Config.tables count (s.sampler start) = none := by
  cases he : commandError i s with
  | some c => cases (exec_of_commandError_some he).symm.trans hx
  | none =>
    rcases exec_of_commandError_none he with ⟨t, ht, -⟩ | ⟨-, start, rs1, count, rfl⟩
    · cases ht.symm.trans hx
    refine ⟨start, rs1, count, rfl, ?_⟩
    obtain ⟨hl, hb, hq, -, -⟩ := commandError_eq_none.1 he
    rw [boundError_smpi, Bool.not_eq_false'] at hb
    rw [sequenceError_smpi, Bool.not_eq_false'] at hq
    cases hd : drawAccepted Config.tables count (s.sampler start) with
    | none => rfl
    | some drawn => cases (exec_smpi s (Nat.not_lt.1 (of_decide_eq_false hl)) hb hq hd).symm.trans hx

/-- Settles O8: a word that does not decode completes with its error, and of the commands only a stuck SMPI stays. -/
theorem everyCommandCompletesOrIsStuck : Obligations.EveryCommandCompletesOrIsStuck := by
  intro s t v hb hp hn h
  rw [step_latched hb hp hn] at h
  cases hd : decodeCmd v with
  | error e =>
    rw [engineRun_error hd] at h
    rw [next_inj h]
    exact .inl ⟨rfl, rfl, State.recordError_lastCmd _ _⟩
  | ok i =>
    rw [engineRun_ok hd] at h
    rcases engineEnd_eq_next h with ⟨u, hx, rfl⟩ | ⟨hx, rfl⟩
    · exact .inl (complete_of_exec (s := afterTurn s) hx)
    · obtain ⟨start, rs1, count, rfl, hdraw⟩ := smpi_of_exec_stuck hx
      exact .inr ⟨rfl, start, rs1, count, rfl, hdraw⟩

/-- Settles O6: the step is `engineEnd` of the command's outcome, which is split here into its three. -/
theorem stepRunsTheLatchedCommand : Obligations.StepRunsTheLatchedCommand := by
  refine ⟨fun s v i hb hp hd hn => ?_, fun s hb hn => ?_⟩
  · rw [step_latched hb hp hn, engineRun_ok hd]
    cases exec i (afterTurn s) with
    | next t => rfl
    | fault r =>
      cases r
      rfl
    | refused r => rfl
  · exact (step_engineNext hn).trans (engineStep_off (s := afterTurn s) (.inl hb))

end Sys2Proof.Safety
end

section
/-! The host's accesses whatever BUSY is: the writes of CTRL (R32, R262), the busy discipline (R265), and the writes of
CMD (R264). -/

namespace Sys2Proof.Machine

open Sys2Proof Sys2Proof.Safety

variable {s : State} {a : Access} {rest : List Event}

/-! The step of one host access, accepted or refused (R225). -/

theorem step_host_accepted {r : WinReg} (he : s.events = .host a :: rest)
    (ha : accessError { s with events := rest } a = none) (hr : accessReg a = some r) :
    step s = .next (acceptAccess r a { s with events := rest }) := by
  simp only [step_event he, runEvent_host, hostAccess, ha, hr]

theorem step_host_refused {c : ErrCode} (he : s.events = .host a :: rest)
    (ha : accessError { s with events := rest } a = some c) :
    step s = .next (refuseAccess c a { s with events := rest }) := by
  simp only [step_event he, runEvent_host, hostAccess, ha]

/-! Which accesses BUSY = 1 admits, and what the others are refused with (R265). -/

theorem eq_of_accessReg_read {off : BitVec 9} {width : Nat} {r : WinReg}
    (h : accessReg (.read off width) = some r) : off = r.offset ∧ width = 8 :=
  eq_of_accessReg_write (v := 0) h

/-- The accesses of R265's list. -/
theorem allowedWhileBusy_iff : allowedWhileBusy a = true ↔
    a = .read 0x108 8 ∨ a = .read 0x118 8 ∨ a = .read 0x120 8 ∨ ∃ v, a = .write 0x110 8 v := by
  constructor
  · intro h
    unfold allowedWhileBusy at h
    split at h
    case h_1 hr =>
      obtain ⟨rfl, rfl⟩ := eq_of_accessReg_read hr
      exact .inl rfl
    case h_2 hr =>
      obtain ⟨rfl, rfl⟩ := eq_of_accessReg_read hr
      exact .inr (.inl rfl)
    case h_3 hr =>
      obtain ⟨rfl, rfl⟩ := eq_of_accessReg_read hr
      exact .inr (.inr (.inl rfl))
    case h_4 v hr =>
      obtain ⟨rfl, rfl⟩ := eq_of_accessReg_write hr
      exact .inr (.inr (.inr ⟨v, rfl⟩))
    case h_5 => cases h
  · rintro (rfl | rfl | rfl | ⟨v, rfl⟩) <;> rfl

/-- An access outside that list is refused while BUSY = 1, with BUSY_ACCESS where its form and value are in order, and
else with one of the two codes (R265; log 5). -/
theorem accessError_busy (hb : s.busy = true) (ha : allowedWhileBusy a = false) :
    ∃ c, accessError s a = some c ∧ (c = .busyAccess ∨ formError a = some c) ∧
      (formError a = none → c = .busyAccess) := by
  rw [accessError, if_pos (by simp [hb, ha])]
  cases formError a with
  | none => exact ⟨_, rfl, .inl rfl, fun _ => rfl⟩
  | some c =>
    refine ⟨_, rfl, ?_, nofun⟩
    split
    · exact .inl rfl
    · exact .inr rfl

/-- An 8-byte read that BUSY = 1 admits delivers its register whatever BUSY is (R265). -/
theorem step_read_allowed {r : WinReg} (he : s.events = .host (.read r.offset 8) :: rest)
    (ha : allowedWhileBusy (.read r.offset 8) = true) :
    step s = .next (({ s with events := rest } : State).reply (windowRead { s with events := rest } r)) :=
  step_host_accepted he ((accessError_allowed ha _).trans (formError_read (accessReg_read_offset r)))
    (accessReg_read_offset r)

/-! CTRL (R32, R262). -/

/-- CTRL admits the values made of ERR_CLR and SOFT_RESET alone (R32). -/
theorem writeError_ctrl_eq_none {v : Word} (hv : v.toNat < 4) : writeError .ctrl v = none := by
  have hzero : v >>> 2 = 0 := by
    rw [← BitVec.toNat_inj, BitVec.toNat_ushiftRight, Nat.shiftRight_eq_div_pow]
    exact Nat.div_eq_of_lt hv
  rw [writeError, if_pos hzero]

/-- An 8-byte write of CTRL acts alike whatever BUSY is (R262, R265): reserved bits are refused (R32). -/
theorem step_write_ctrl {v : Word} (he : s.events = .host (.write 0x110 8 v) :: rest) :
    step s = .next (if 4 ≤ v.toNat then ({ s with events := rest } : State).recordError .hostAccess
      else ctrlWrite v { s with events := rest }) := by
  have hr : accessReg (.write 0x110 8 v) = some .ctrl := accessReg_write_offset .ctrl v
  have ha : accessError { s with events := rest } (.write 0x110 8 v) = writeError .ctrl v :=
    (accessError_allowed (allowedWhileBusy_iff.2 (.inr (.inr (.inr ⟨v, rfl⟩)))) _).trans (formError_write hr)
  split
  case isTrue hv => exact step_host_refused he (ha.trans (writeError_ctrl_reserved hv))
  case isFalse hv => exact step_host_accepted he (ha.trans (writeError_ctrl_eq_none (Nat.lt_of_not_le hv))) hr

/-- Settles O58: the four kinds of access of `allowedWhileBusy_iff`, and all others. -/
theorem busyDiscipline : Obligations.BusyDiscipline := by
  intro s a rest hb he
  refine ⟨?_, ?_, ?_, ?_, fun hstatus hid hcfg hctrl => ?_⟩
  · rintro rfl
    exact step_read_allowed (r := .status) he rfl
  · rintro rfl
    exact step_read_allowed (r := .id) he rfl
  · rintro rfl
    exact step_read_allowed (r := .cfg) he rfl
  · rintro v rfl
    exact step_write_ctrl he
  · have hother : allowedWhileBusy a = false := by
      rw [Bool.eq_false_iff, Ne, allowedWhileBusy_iff]
      rintro (h | h | h | ⟨v, h⟩)
      exacts [hstatus h, hid h, hcfg h, hctrl v h]
    obtain ⟨c, hc, hcode, hform⟩ := accessError_busy (s := { s with events := rest }) hb hother
    refine ⟨c, hcode, hform, (step_host_refused he hc).trans ?_⟩
    cases a with
    | read => rw [refuseAccess_read, State.reply, State.recordError_replies]
    | write => rfl

/-- Settles O9: a CMD write has no error of form, so while BUSY = 1 its code is BUSY_ACCESS. -/
theorem cmdWriteLatchesTheCommand : Obligations.CmdWriteLatchesTheCommand := by
  intro s v rest he
  have hr : accessReg (.write 0x100 8 v) = some .cmd := accessReg_write_offset .cmd v
  refine ⟨fun hb => ?_, fun hb herr => ?_, fun hb herr => ?_⟩
  · obtain ⟨c, hc, -, hform⟩ :=
      accessError_busy (s := { s with events := rest }) hb (allowedWhileBusy_write_cmd hr)
    rw [hform (formError_write hr)] at hc
    exact step_host_refused he hc
  · refine (step_write_accepted (r := .cmd) hb he rfl).trans ?_
    rw [windowWrite, hostWriteCmd, if_pos herr]
  · refine (step_write_accepted (r := .cmd) hb he rfl).trans ?_
    rw [windowWrite, hostWriteCmd, if_neg (Bool.eq_false_iff.1 herr), State.latch]

/-- Settles O11: SOFT_RESET is `resetBlock`, as power-on is; ERR_CLR alone is `clearError`. -/
theorem resetsAndErrorClear : Obligations.ResetsAndErrorClear := by
  intro s e rest he
  refine ⟨?_, ?_, ?_⟩
  · rintro (rfl | rfl | rfl)
    · exact step_event he
    · exact step_write_ctrl he
    · exact step_write_ctrl he
  · rintro rfl
    exact step_write_ctrl he
  · rintro rfl
    exact step_write_ctrl he

end Sys2Proof.Machine
end
